-- ==== Sys2Proof/Word.lean ====
section
/-!
DEFINITION. The bit-vector types of the core: bytes, instruction words, and the 4-bit and 12-bit
operand fields (00_scope.md R6, R8; 30_encoding.md R91). Nothing else of the core is a bit vector.
-/

namespace Sys2Proof

/-- One byte: a general register, a timer, one cell of memory (R21, R29, R30, R61). -/
abbrev Byte := BitVec 8

/-- Sixteen bits: an instruction word, the program counter, the index register, one entry of the
call stack (R25, R26, R27, R90). -/
abbrev Word := BitVec 16

/-- A 4-bit field of an instruction word: a register index, a row count (R91). -/
abbrev Nibble := BitVec 4

/-- The 12-bit address field NNN of an instruction word (R91). -/
abbrev Addr12 := BitVec 12

end Sys2Proof
end

