-- ==== Sys2Proof/Config.lean ====
section
/-!
DEFINITION. The parameters of the model (00_scope.md R7), each an opaque constant: no proof can see
its value, so what is proved holds for every choice. IMAGE, the fourth parameter of R7, is an input of
the host operation that loads it (Machine/HostOps.lean).
-/

namespace Sys2Proof

/-- FONT (R7; 92_eei_decisions.md D25): the 80 glyph bytes loaded at 0x000..0x04F at reset, glyph d at
bytes 5d to 5d+4 (R62). Log entry 3. -/
opaque Config.font : Vector Byte 80

/-- `rand` (R7, R192; D24): the byte drawn by the n-th executed Cxkk. A free value: nothing constrains
it, no law relates two draws. Log entry 1. -/
opaque Config.randByte (n : Nat) : Byte

/-- STEP_WHILE_AWAITING (R7, R130; D16): whether `step` is enabled while the awaiting-input flag is
set. The spec leaves the policy to the host, so it is a parameter. Log entry 2. -/
opaque Config.stepWhileAwaiting : Bool

end Sys2Proof
end

