-- ==== Sys2Proof/Syntax.lean ====
section
/-!
DEFINITION. The instruction set as syntax: one constructor for each of the 34 rows of
spec/opcode_table.json (30_encoding.md R96, R105), in the table's order.
Every operand has exactly its field's width (R91, R93), so every term of `Instr` is an instruction of
the core: there is no ill-formed one.
-/

namespace Sys2Proof

/-- The 34 instructions. `x` and `y` are register indices, `kk` the 8-bit immediate, `nnn` the
12-bit address, `n` the sprite row count (R91, R93). SHR and SHL carry no `y`: that field of their
word is ignored (R94). -/
inductive Instr where
  /-- 00E0 CLS (R221). -/
  | cls
  /-- 00EE RET (R150). -/
  | ret
  /-- 1nnn JP nnn (R151). -/
  | jpNnn (nnn : Addr12)
  /-- 2nnn CALL nnn (R152). -/
  | callNnn (nnn : Addr12)
  /-- 3xkk SE Vx,kk (R153). -/
  | seVxKk (x : Nibble) (kk : Byte)
  /-- 4xkk SNE Vx,kk (R154). -/
  | sneVxKk (x : Nibble) (kk : Byte)
  /-- 5xy0 SE Vx,Vy (R155). -/
  | seVxVy (x y : Nibble)
  /-- 6xkk LD Vx,kk (R181). -/
  | ldVxKk (x : Nibble) (kk : Byte)
  /-- 7xkk ADD Vx,kk (R182). -/
  | addVxKk (x : Nibble) (kk : Byte)
  /-- 8xy0 LD Vx,Vy (R183). -/
  | ldVxVy (x y : Nibble)
  /-- 8xy1 OR Vx,Vy (R184). -/
  | orVxVy (x y : Nibble)
  /-- 8xy2 AND Vx,Vy (R185). -/
  | andVxVy (x y : Nibble)
  /-- 8xy3 XOR Vx,Vy (R186). -/
  | xorVxVy (x y : Nibble)
  /-- 8xy4 ADD Vx,Vy (R187). -/
  | addVxVy (x y : Nibble)
  /-- 8xy5 SUB Vx,Vy (R188). -/
  | subVxVy (x y : Nibble)
  /-- 8xy6 SHR Vx (R190); the word's y is ignored (R94). -/
  | shrVx (x : Nibble)
  /-- 8xy7 SUBN Vx,Vy (R189). -/
  | subnVxVy (x y : Nibble)
  /-- 8xyE SHL Vx (R191); the word's y is ignored (R94). -/
  | shlVx (x : Nibble)
  /-- 9xy0 SNE Vx,Vy (R156). -/
  | sneVxVy (x y : Nibble)
  /-- Annn LD I,nnn (R260). -/
  | ldINnn (nnn : Addr12)
  /-- Bnnn JP V0,nnn (R157). -/
  | jpV0Nnn (nnn : Addr12)
  /-- Cxkk RND Vx,kk (R192). -/
  | rndVxKk (x : Nibble) (kk : Byte)
  /-- Dxyn DRW Vx,Vy,n (R222). -/
  | drwVxVyN (x y n : Nibble)
  /-- Ex9E SKP Vx (R240). -/
  | skpVx (x : Nibble)
  /-- ExA1 SKNP Vx (R241). -/
  | sknpVx (x : Nibble)
  /-- Fx07 LD Vx,DT (R242). -/
  | ldVxDt (x : Nibble)
  /-- Fx0A LD Vx,K (R243). -/
  | ldVxK (x : Nibble)
  /-- Fx15 LD DT,Vx (R244). -/
  | ldDtVx (x : Nibble)
  /-- Fx18 LD ST,Vx (R245). -/
  | ldStVx (x : Nibble)
  /-- Fx1E ADD I,Vx (R261). -/
  | addIVx (x : Nibble)
  /-- Fx29 LD F,Vx (R262). -/
  | ldFVx (x : Nibble)
  /-- Fx33 LD B,Vx (R263). -/
  | ldBVx (x : Nibble)
  /-- Fx55 LD [I],Vx (R264). -/
  | ldMemVx (x : Nibble)
  /-- Fx65 LD Vx,[I] (R265). -/
  | ldVxMem (x : Nibble)
  deriving DecidableEq, Repr

end Sys2Proof
end

