-- ==== Sys2Proof/Decode.lean ====
section
/-!
DEFINITION. Decoding an instruction word (30_encoding.md R90 to R103): total, and rejecting by name
the words that are no instruction; then the encoder, laid out by the six formats of R92.
-/

namespace Sys2Proof

/-- Why bytes are no instruction. -/
inductive Reject where
  /-- The word matches no row of the opcode map; it carries the raw opcode (R102). -/
  | unrecognized (op : Word)
  /-- Fewer than the two bytes that every instruction has (R90). -/
  | truncated
  deriving DecidableEq, Repr

/-! ### The fields of a word (R91) -/

/-- `op[15:12]`, the primary dispatch selector. -/
def fieldHigh (op : Word) : Nibble := op.extractLsb' 12 4
/-- X, `op[11:8]`. -/
def fieldX (op : Word) : Nibble := op.extractLsb' 8 4
/-- Y, `op[7:4]`. -/
def fieldY (op : Word) : Nibble := op.extractLsb' 4 4
/-- N and the low nibble, `op[3:0]`. -/
def fieldN (op : Word) : Nibble := op.extractLsb' 0 4
/-- KK and the low byte, `op[7:0]`. -/
def fieldKK (op : Word) : Byte := op.extractLsb' 0 8
/-- NNN, `op[11:0]`. -/
def fieldNNN (op : Word) : Addr12 := op.extractLsb' 0 12

/-- Big-endian: the byte at the lower address is the high byte of the word (R66). -/
def joinBytes (hi lo : Byte) : Word := hi ++ lo
/-- The byte of a word stored at the lower address (R66). -/
def highByte (op : Word) : Byte := op.extractLsb' 8 8
/-- The byte of a word stored at the higher address (R66). -/
def lowByte (op : Word) : Byte := op.extractLsb' 0 8

/-! ### Dispatch (R95, R96): the high nibble first, then a second level for six of them -/

/-- High nibble 0: only the two whole words 00E0 and 00EE (R97). -/
def decodeHigh0 (op : Word) : Except Reject Instr :=
  if op = 0x00E0 then .ok .cls
  else if op = 0x00EE then .ok .ret
  else .error (.unrecognized op)

/-- High nibble 5: the low nibble must be 0 (R98). -/
def decodeHigh5 (op : Word) : Except Reject Instr :=
  if fieldN op = 0 then .ok (.seVxVy (fieldX op) (fieldY op)) else .error (.unrecognized op)

/-- High nibble 8: nine of the sixteen low nibbles (R99). SHR and SHL ignore Y (R94). -/
def decodeHigh8 (op : Word) : Except Reject Instr :=
  match (fieldN op).toNat with
  | 0x0 => .ok (.ldVxVy (fieldX op) (fieldY op))
  | 0x1 => .ok (.orVxVy (fieldX op) (fieldY op))
  | 0x2 => .ok (.andVxVy (fieldX op) (fieldY op))
  | 0x3 => .ok (.xorVxVy (fieldX op) (fieldY op))
  | 0x4 => .ok (.addVxVy (fieldX op) (fieldY op))
  | 0x5 => .ok (.subVxVy (fieldX op) (fieldY op))
  | 0x6 => .ok (.shrVx (fieldX op))
  | 0x7 => .ok (.subnVxVy (fieldX op) (fieldY op))
  | 0xE => .ok (.shlVx (fieldX op))
  | _ => .error (.unrecognized op)

/-- High nibble 9: the low nibble must be 0 (R98). -/
def decodeHigh9 (op : Word) : Except Reject Instr :=
  if fieldN op = 0 then .ok (.sneVxVy (fieldX op) (fieldY op)) else .error (.unrecognized op)

/-- High nibble E: two of the low bytes (R100). -/
def decodeHighE (op : Word) : Except Reject Instr :=
  match (fieldKK op).toNat with
  | 0x9E => .ok (.skpVx (fieldX op))
  | 0xA1 => .ok (.sknpVx (fieldX op))
  | _ => .error (.unrecognized op)

/-- High nibble F: nine of the low bytes (R101). -/
def decodeHighF (op : Word) : Except Reject Instr :=
  match (fieldKK op).toNat with
  | 0x07 => .ok (.ldVxDt (fieldX op))
  | 0x0A => .ok (.ldVxK (fieldX op))
  | 0x15 => .ok (.ldDtVx (fieldX op))
  | 0x18 => .ok (.ldStVx (fieldX op))
  | 0x1E => .ok (.addIVx (fieldX op))
  | 0x29 => .ok (.ldFVx (fieldX op))
  | 0x33 => .ok (.ldBVx (fieldX op))
  | 0x55 => .ok (.ldMemVx (fieldX op))
  | 0x65 => .ok (.ldVxMem (fieldX op))
  | _ => .error (.unrecognized op)

/-- The opcode map (R96). Decoding reads the word alone (R104). -/
def decodeWord (op : Word) : Except Reject Instr :=
  match (fieldHigh op).toNat with
  | 0x0 => decodeHigh0 op
  | 0x1 => .ok (.jpNnn (fieldNNN op))
  | 0x2 => .ok (.callNnn (fieldNNN op))
  | 0x3 => .ok (.seVxKk (fieldX op) (fieldKK op))
  | 0x4 => .ok (.sneVxKk (fieldX op) (fieldKK op))
  | 0x5 => decodeHigh5 op
  | 0x6 => .ok (.ldVxKk (fieldX op) (fieldKK op))
  | 0x7 => .ok (.addVxKk (fieldX op) (fieldKK op))
  | 0x8 => decodeHigh8 op
  | 0x9 => decodeHigh9 op
  | 0xA => .ok (.ldINnn (fieldNNN op))
  | 0xB => .ok (.jpV0Nnn (fieldNNN op))
  | 0xC => .ok (.rndVxKk (fieldX op) (fieldKK op))
  | 0xD => .ok (.drwVxVyN (fieldX op) (fieldY op) (fieldN op))
  | 0xE => decodeHighE op
  | _ => decodeHighF op

/-- Decoding from bytes in address order: one instruction and the bytes after it (R90, R66). -/
def decodeBytes : List Byte → Except Reject (Instr × List Byte)
  | hi :: lo :: rest =>
    match decodeWord (joinBytes hi lo) with
    | .ok i => .ok (i, rest)
    | .error r => .error r
  | _ => .error .truncated

/-- The instruction read from a word numbered as spec/opcode_table.json numbers it, laid out in memory
order (high byte first, R66) and given to the decoder. Every row has 16 bits, so `nbits` adds nothing:
bits above it are 0 in `w` already. -/
def decodeTableWord (_nbits w : Nat) : Option Instr :=
  let op : Word := BitVec.ofNat 16 w
  match decodeBytes [highByte op, lowByte op] with
  | .ok (i, _) => some i
  | .error _ => none

/-! ### The encoder (R92) -/

/-- Format nnn: `oooo nnnn nnnn nnnn`. -/
def packNnn (o : Nibble) (nnn : Addr12) : Word := o ++ nnn
/-- Formats xkk and x: `oooo xxxx kkkk kkkk`; format x has a fixed low byte. -/
def packXkk (o x : Nibble) (kk : Byte) : Word := o ++ x ++ kk
/-- Formats xyn and xy: `oooo xxxx yyyy nnnn`; format xy has a fixed low nibble. -/
def packXyn (o x y n : Nibble) : Word := o ++ x ++ y ++ n

/-- The word of an instruction (R92, R96). SHR and SHL are written with their ignored y zero (R94). -/
def encode : Instr → Word
  | .cls => 0x00E0
  | .ret => 0x00EE
  | .jpNnn nnn => packNnn 0x1 nnn
  | .callNnn nnn => packNnn 0x2 nnn
  | .seVxKk x kk => packXkk 0x3 x kk
  | .sneVxKk x kk => packXkk 0x4 x kk
  | .seVxVy x y => packXyn 0x5 x y 0x0
  | .ldVxKk x kk => packXkk 0x6 x kk
  | .addVxKk x kk => packXkk 0x7 x kk
  | .ldVxVy x y => packXyn 0x8 x y 0x0
  | .orVxVy x y => packXyn 0x8 x y 0x1
  | .andVxVy x y => packXyn 0x8 x y 0x2
  | .xorVxVy x y => packXyn 0x8 x y 0x3
  | .addVxVy x y => packXyn 0x8 x y 0x4
  | .subVxVy x y => packXyn 0x8 x y 0x5
  | .shrVx x => packXyn 0x8 x 0x0 0x6
  | .subnVxVy x y => packXyn 0x8 x y 0x7
  | .shlVx x => packXyn 0x8 x 0x0 0xE
  | .sneVxVy x y => packXyn 0x9 x y 0x0
  | .ldINnn nnn => packNnn 0xA nnn
  | .jpV0Nnn nnn => packNnn 0xB nnn
  | .rndVxKk x kk => packXkk 0xC x kk
  | .drwVxVyN x y n => packXyn 0xD x y n
  | .skpVx x => packXkk 0xE x 0x9E
  | .sknpVx x => packXkk 0xE x 0xA1
  | .ldVxDt x => packXkk 0xF x 0x07
  | .ldVxK x => packXkk 0xF x 0x0A
  | .ldDtVx x => packXkk 0xF x 0x15
  | .ldStVx x => packXkk 0xF x 0x18
  | .addIVx x => packXkk 0xF x 0x1E
  | .ldFVx x => packXkk 0xF x 0x29
  | .ldBVx x => packXkk 0xF x 0x33
  | .ldMemVx x => packXkk 0xF x 0x55
  | .ldVxMem x => packXkk 0xF x 0x65

end Sys2Proof
end

