-- ==== Sys2Proof/Machine/State.lean ====
section
/-!
DEFINITION. The whole state of the core (10_state.md R20), as plain data, the reasons a step or a host
operation can stop, and the state after reset (R42).
-/

namespace Sys2Proof.Machine

/-- The six kinds of fatal failure (60_exceptions.md R301). -/
inductive FaultKind where
  | unrecognizedInstruction
  | internalInconsistency
  | stackOverflow
  | stackUnderflow
  | memoryOutOfBounds
  | keyIndexOutOfRange
  deriving DecidableEq, Repr

/-- The fault record (R302). The record's `code` is a function of its `kind` (R301) and is computed
from it by `FaultRecord.code` in Machine/Ops.lean. -/
structure FaultRecord where
  kind : FaultKind
  /-- `pc0`, the address of the faulting instruction or of the failed fetch. -/
  pc : Word
  /-- The fetched word, none when the fetch itself faulted. -/
  opcode : Option Word
  /-- What R301 records for the kind. -/
  info : Nat
  deriving DecidableEq, Repr

/-- Memory: the (address, byte) pairs that differ from the reset contents (R61, R62). Its canonical
form is `Memory.wf` in Machine/Ops.lean. -/
abbrev Memory := List Host.Cell

/-- The display: 32 rows of 64 single-bit cells (R31). -/
abbrev Grid := Vector (Vector Bool 64) 32

/-- The core's whole state (R20), and one field of the model's own, `draws`. -/
structure State where
  /-- Memory (R61). -/
  mem : Memory
  /-- V0..VF (R21). -/
  regs : Vector Byte 16
  /-- The index register I (R26). -/
  i : Word
  /-- The program counter (R25). -/
  pc : Word
  /-- The call stack's entries (R27). -/
  stack : Vector Word 16
  /-- The stack pointer: the count of entries in use, 0..16 (R28). -/
  sp : Fin 17
  /-- The delay timer DT (R29). -/
  dt : Byte
  /-- The sound timer ST (R30). -/
  st : Byte
  /-- The display (R31): `disp[r][c]` is the cell at column c, row r. -/
  disp : Grid
  /-- The key-down states (R32). -/
  keys : Vector Bool 16
  /-- The most recently reported key value (R33). -/
  pendingKey : Nibble
  /-- The awaiting-input flag (R34). -/
  awaitingKey : Bool
  /-- The register a pending wait-for-key writes (R35). -/
  waitReg : Nibble
  /-- Display changed since the last render (R36). -/
  drawPending : Bool
  /-- The recorded fatal failure; while there is one the core is halted (R37). -/
  fault : Option FaultRecord
  /-- The MODEL'S OWN field: how many draws executed Cxkk instructions have taken. The next draw is
  `Config.randByte draws` (R192; log entry 1). -/
  draws : Nat
  deriving DecidableEq, Repr

/-- Why no step is enabled (R130). A failure of an instruction is not one of these: it is a next state
whose `fault` field holds the record (R300). -/
inductive Fault where
  /-- Raised by `step` alone, on a core halted by a recorded fault (R130, R303). Safe: the spec
  enables no step here. -/
  | halted (r : FaultRecord)
  /-- Raised by `step` alone, when the awaiting-input flag is set and the parameter
  STEP_WHILE_AWAITING is false (R130, R324 (c)). Safe: the spec enables no step here. -/
  | blockedAwaitingKey
  deriving DecidableEq, Repr

/-- What the model gives no meaning to. -/
inductive Refusal where
  /-- Raised by an arm of `exec` whose instruction has no meaning yet; no arm does. Safe. -/
  | notModelled (mnemonic : String)
  /-- Raised by the host operation supply_key on a value above 0xF (R311, R323). Safe. -/
  | keyValueOutOfRange (k : Nat)
  /-- Raised by the host operation set_key on an index above 0xF (R312, R323). Safe. -/
  | keyIndexNotAKey (k : Nat)
  /-- Raised by the host operation that loads a program, on a FONT that is not 80 bytes (R342). Safe. -/
  | fontNot80Bytes (length : Nat)
  /-- Raised by the host operation that loads a program, on an IMAGE over 3584 bytes (R344). Safe. -/
  | imageTooLong (length : Nat)
  deriving DecidableEq, Repr

/-- What a step, an instruction or a host operation answers. -/
abbrev Result := Host.Outcome State Fault Refusal

/-- The state right after reset (R42, R341) with an empty IMAGE: memory holds FONT at 0x000..0x04F and
zero elsewhere, which is what unlisted addresses read as. -/
def State.reset : State where
  mem := []
  regs := Vector.replicate 16 0
  i := 0
  pc := 0x200
  stack := Vector.replicate 16 0
  sp := 0
  dt := 0
  st := 0
  disp := Vector.replicate 32 (Vector.replicate 64 false)
  keys := Vector.replicate 16 false
  pendingKey := 0
  awaitingKey := false
  waitReg := 0
  drawPending := false
  fault := none
  draws := 0

end Sys2Proof.Machine
end

