-- ==== Sys2Proof/Machine/Ops.lean ====
section
/-!
DEFINITION. The named operations of the core that the instructions share: memory and its decoder
(20_memory.md), the register file (10_state.md R21), the call stack (R27, R28), the display grid
(R31), raising a fault (60_exceptions.md R300 to R302), the program-counter resolver (40_engine_pc.md
R131 to R133), and when a step is enabled and what it fetches (R130, R135).
-/

namespace Sys2Proof.Machine

open Host (Outcome)

/-! ### Memory (R61 to R66) -/

/-- MEM_SIZE (R6): 0x000..0xFFF are the addresses that name a byte. -/
def memSize : Nat := 0x1000

/-- What an address reads as until something is written there: its reset contents with an empty IMAGE
(R42), FONT below 0x050 and zero elsewhere. -/
def Memory.background (a : Nat) : Byte :=
  if h : a < 80 then Config.font[a] else 0

/-- The byte at an address (R71: the last one written, or the reset contents). -/
def Memory.read : Memory → Nat → Byte
  | [], a => Memory.background a
  | (k, b) :: rest, a => if a = k then b else Memory.read rest a

/-- Put a cell at its place in the address order. -/
def Memory.insert (a : Nat) (b : Byte) : Memory → Memory
  | [] => [(a, b)]
  | (k, v) :: rest => if a < k then (a, b) :: (k, v) :: rest else (k, v) :: Memory.insert a b rest

/-- Take every cell at an address out. -/
def Memory.erase (a : Nat) (m : Memory) : Memory :=
  m.filter fun c => c.1 != a

/-- Store one byte (R63). A byte equal to the reset contents is not listed; an address beyond the
memory names no byte, so nothing is stored there (the instructions raise a fault before it comes to
that). -/
def Memory.write (m : Memory) (a : Nat) (b : Byte) : Memory :=
  if a < memSize then
    if b = Memory.background a then Memory.erase a m else Memory.insert a b (Memory.erase a m)
  else m

/-- The canonical form: addresses strictly rising, each one of the memory's, and no cell equal to
what its address reads as unlisted. -/
abbrev Memory.wf (m : Memory) : Prop :=
  m.Pairwise (fun c d => c.1 < d.1) ∧ ∀ c ∈ m, c.1 < memSize ∧ c.2 ≠ Memory.background c.1

/-- `count` bytes from `base` upwards. -/
def Memory.loadBytes (m : Memory) (base : Nat) : Nat → List Byte
  | 0 => []
  | count + 1 => m.read base :: Memory.loadBytes m (base + 1) count

/-- Store bytes from `base` upwards, lowest address first (R263, R264). -/
def Memory.storeBytes (m : Memory) (base : Nat) : List Byte → Memory
  | [] => m
  | b :: rest => Memory.storeBytes (m.write base b) (base + 1) rest

/-- The address check of an access to `count` bytes from `base` upwards, made before any write (R64):
none when every address names a byte, else the lowest address that does not (R63, R301). -/
def outOfBounds (base count : Nat) : Option Nat :=
  if count = 0 then none
  else if base + count ≤ memSize then none
  else some (max base memSize)

/-! ### The register file (R10, R21) -/

/-- `V[x]`. -/
def State.v (s : State) (x : Nibble) : Byte := s.regs[x.toNat]'x.isLt

/-- `V[x] <- b`. -/
def State.setV (s : State) (x : Nibble) (b : Byte) : State :=
  { s with regs := s.regs.set x.toNat b x.isLt }

/-- `VF <- b` (R23). -/
def State.setVF (s : State) (b : Byte) : State := s.setV 0xF b

/-- `V[k] <- b` for the k-th byte of a list, from `V[k0]` on, lowest register first (R265). -/
def setRegsFrom (k0 : Nat) : List Byte → Vector Byte 16 → Vector Byte 16
  | [], regs => regs
  | b :: rest, regs => setRegsFrom (k0 + 1) rest (regs.setIfInBounds k0 b)

/-- `V[0]` to `V[x]` in order (R264). -/
def State.regsUpTo (s : State) (x : Nibble) : List Byte := s.regs.toList.take (x.toNat + 1)

/-! ### The call stack (R27, R28) -/

/-- Write `stack[sp]`, then increment `sp`; none when all 16 entries are in use. -/
def State.push (s : State) (a : Word) : Option State :=
  if h : s.sp.val < 16 then
    some { s with stack := s.stack.set s.sp.val a h, sp := ⟨s.sp.val + 1, by omega⟩ }
  else none

/-- Decrement `sp`, then read `stack[sp]`, which is not cleared (R150); none when no entry is in use. -/
def State.pop (s : State) : Option (State × Word) :=
  if h : 0 < s.sp.val then
    some ({ s with sp := ⟨s.sp.val - 1, by omega⟩ }, s.stack[s.sp.val - 1]'(by omega))
  else none

/-! ### The display (R31) -/

/-- `Disp(c, r)`. -/
def Grid.cell (g : Grid) (c : Fin 64) (r : Fin 32) : Bool := g[r.val][c.val]

/-- `Disp(c, r) <- b`. -/
def Grid.setCell (g : Grid) (c : Fin 64) (r : Fin 32) (b : Bool) : Grid :=
  g.set r.val (g[r.val].set c.val b)

/-- Every cell unlit (R221). -/
def Grid.unlit : Grid := Vector.replicate 32 (Vector.replicate 64 false)

/-! ### Raising a fault (R300 to R302) -/

/-- The code of a fault kind (R301). -/
def FaultKind.code : FaultKind → Nat
  | .unrecognizedInstruction => 1
  | .internalInconsistency => 2
  | .stackOverflow => 3
  | .stackUnderflow => 4
  | .memoryOutOfBounds => 5
  | .keyIndexOutOfRange => 6

/-- The `code` of a fault record (R302). -/
def FaultRecord.code (r : FaultRecord) : Nat := r.kind.code

/-- The core with a fault recorded: nothing else changes, and `pc` keeps the address of the faulting
instruction (R136, R300). The core is then halted (R303). There is no handler to enter and no return
from one (R306); only the host operation of R342 clears the record. -/
def State.raise (s : State) (kind : FaultKind) (opcode : Option Word) (info : Nat) : State :=
  { s with fault := some { kind := kind, pc := s.pc, opcode := opcode, info := info } }

/-- An instruction's own check has failed. Its record holds its word (R302), which `encode` gives:
every instruction with a check of its own has no ignored field (log entry 7). -/
def raiseIn (ins : Instr) (s : State) (kind : FaultKind) (info : Nat) : Result :=
  .next (s.raise kind (some (encode ins)) info)

/-! ### The program-counter outcome and the resolver (R131 to R133) -/

/-- The four variants of a step's program-counter outcome (R131). -/
inductive PcOutcome where
  | unset
  | advance
  | skip
  | jump (a : Word)
  deriving DecidableEq, Repr

/-- `skip_if` (R132). -/
def skipIf (c : Bool) : PcOutcome := if c then .skip else .advance

/-- Resolve the outcome of instruction `ins`, begun in state `s` and with its writes made in `t`
(R133): the counter moves relative to its value before the instruction, and all writes take effect
together with it (R136). An unset outcome is fatal and discards them. -/
def resolve (ins : Instr) (s t : State) : PcOutcome → Result
  | .advance => .next { t with pc := s.pc + 2 }
  | .skip => .next { t with pc := s.pc + 4 }
  | .jump a => .next { t with pc := a }
  | .unset => raiseIn ins s .internalInconsistency s.pc.toNat

/-! ### Enabling and fetching a step (R130, R135) -/

/-- Why no step is enabled, under the policy STEP_WHILE_AWAITING; none when one is (R130). -/
def stepDisabled (policy : Bool) (s : State) : Option Fault :=
  match s.fault with
  | some r => some (.halted r)
  | none => if s.awaitingKey && !policy then some .blockedAwaitingKey else none

/-- Fetch the big-endian word at `pc`, or the address of the byte that does not exist; the byte at
`pc` is checked first (R66, R135, R304). -/
def fetchWord (s : State) : Except Nat Word :=
  if s.pc.toNat ≥ memSize then .error s.pc.toNat
  else if s.pc.toNat + 1 ≥ memSize then .error (s.pc.toNat + 1)
  else .ok (joinBytes (s.mem.read s.pc.toNat) (s.mem.read (s.pc.toNat + 1)))

/-- A fetch that faults (R135, R302). -/
def raiseFetch (s : State) (a : Nat) : Result :=
  .next (s.raise .memoryOutOfBounds none a)

/-- A fetched word that is no instruction (R102, R302). -/
def raiseUnrecognized (s : State) (op : Word) : Result :=
  .next (s.raise .unrecognizedInstruction (some op) op.toNat)

/-- Memory with a word stored at an address as an instruction is, high byte first (R66). -/
def Memory.storeWord (m : Memory) (a : Nat) (op : Word) : Memory :=
  m.storeBytes a [highByte op, lowByte op]

end Sys2Proof.Machine
end

