-- ==== Sys2Proof/Machine/Operands.lean ====
section
/-!
DEFINITION. How an instruction's operands become values (30_encoding.md R93; 00_scope.md R9, R11):
nothing is sign-extended, scaled or shifted, and the sums that reach an address are taken as the
spec writes them.
-/

namespace Sys2Proof.Machine

/-- A 12-bit address where a 16-bit value is wanted: `zext_16(NNN)` (R93). -/
def absolute (nnn : Addr12) : Word := nnn.zeroExtend 16

/-- The target of JP V0,nnn: `zext_16(NNN) + zext_16(V[0])`, not masked (R157). -/
def offsetTarget (nnn : Addr12) (v0 : Byte) : Word := nnn.zeroExtend 16 + v0.zeroExtend 16

/-- The return address that CALL pushes: the address after the CALL (R137, R152). -/
def returnAddress (s : State) : Word := s.pc + 2

/-- The index register as an address, the base of every data access (R63, R69). -/
def State.base (s : State) : Nat := s.i.toNat

/-- `trunc_16(I + vx)` (R261). -/
def indexSum (i : Word) (vx : Byte) : Word := BitVec.ofNat 16 (i.toNat + vx.toNat)

/-- `zext_16(vx) * 5`, the address of glyph vx; exact (R262). -/
def glyphAddress (vx : Byte) : Word := BitVec.ofNat 16 (vx.toNat * 5)

/-- `trunc_16(base + X + 1)` (R264). -/
def indexAfterDump (i : Word) (x : Nibble) : Word := BitVec.ofNat 16 (i.toNat + x.toNat + 1)

/-- The three decimal digits of a byte: hundreds, tens, ones (R263). -/
def bcdDigits (vx : Byte) : List Byte :=
  [BitVec.ofNat 8 (vx.toNat / 100), BitVec.ofNat 8 (vx.toNat / 10 % 10), BitVec.ofNat 8 (vx.toNat % 10)]

/-- The key that a register's value names, none above 0xF (R240, R241). -/
def keyDown (s : State) (vx : Byte) : Option Bool :=
  if h : vx.toNat < 16 then some s.keys[vx.toNat] else none

/-- The display column of a sprite's column `c`: it wraps (R220). -/
def spriteColumn (vx : Byte) (c : Nat) : Fin 64 := ⟨(vx.toNat + c) % 64, Nat.mod_lt _ (by decide)⟩

/-- The display row of a sprite's row `r`: it wraps (R220). -/
def spriteLine (vy : Byte) (r : Nat) : Fin 32 := ⟨(vy.toNat + r) % 32, Nat.mod_lt _ (by decide)⟩

/-- Column `c` of a sprite row, most significant bit first (R220). -/
def spriteBit (row : Byte) (c : Nat) : Bool := row.getLsbD (7 - c)

end Sys2Proof.Machine
end

