-- ==== Sys2Proof/Machine/Flags.lean ====
section
/-!
DEFINITION. The values that instructions write to VF as a flag (10_state.md R23), each over the
operands latched before any write (42_alu.md R180). Comparisons and sums are over the integers (R9).
The collision flag is computed while drawing (Machine/Display.lean).
-/

namespace Sys2Proof.Machine

/-- A condition as a flag value, 1 or 0. -/
def flag (c : Bool) : Byte := if c then 1 else 0

/-- 8xy4: the sum exceeds 255 (R187). -/
def carryFlag (vx vy : Byte) : Byte := flag (decide (vx.toNat + vy.toNat > 255))

/-- 8xy5: no borrow, the comparison is strict (R188). -/
def noBorrowFlag (vx vy : Byte) : Byte := flag (decide (vx.toNat > vy.toNat))

/-- 8xy7: the signed difference vy − vx is negative (R189). Not the sense of 8xy5's flag (R194). -/
def negativeFlag (vx vy : Byte) : Byte := flag (decide ((vy.toNat : Int) - (vx.toNat : Int) < 0))

/-- 8xy6: bit 0 before the shift (R190). -/
def lowBitFlag (vx : Byte) : Byte := vx &&& 1

/-- 8xyE: bit 7 before the shift, as the value 0 or 1 (R191). -/
def highBitFlag (vx : Byte) : Byte := (vx >>> 7) &&& 1

/-- Fx1E: the resulting index exceeds 0xFFF (R261). -/
def indexFlag (i : Word) : Byte := flag (decide (i.toNat > 0xFFF))

end Sys2Proof.Machine
end

