-- ==== Sys2Proof/Machine/Alu.lean ====
section
/-!
DEFINITION. Immediate loads, copies, the ALU and the random byte (42_alu.md R180 to R194). Operands
are latched from the state before the instruction; the writes follow in the order of the rule, so that
with X = 0xF the later one remains (R180).
-/

namespace Sys2Proof.Machine

/-- `V[X] <- b; outcome <- Next`. -/
def writeVx (ins : Instr) (x : Nibble) (b : Byte) (s : State) : Result :=
  resolve ins s (s.setV x b) .advance

/-- `VF <- f; V[X] <- b; outcome <- Next`: the result is written last. -/
def writeFlagThenVx (ins : Instr) (x : Nibble) (f b : Byte) (s : State) : Result :=
  resolve ins s ((s.setVF f).setV x b) .advance

/-- 6xkk LD Vx,kk (R181). -/
def execLdVxKk (x : Nibble) (kk : Byte) (s : State) : Result :=
  writeVx (.ldVxKk x kk) x kk s

/-- 7xkk ADD Vx,kk (R182): wraps, no flag. -/
def execAddVxKk (x : Nibble) (kk : Byte) (s : State) : Result :=
  writeVx (.addVxKk x kk) x (s.v x + kk) s

/-- 8xy0 LD Vx,Vy (R183). -/
def execLdVxVy (x y : Nibble) (s : State) : Result :=
  writeVx (.ldVxVy x y) x (s.v y) s

/-- 8xy1 OR Vx,Vy (R184): VF is not reset. -/
def execOrVxVy (x y : Nibble) (s : State) : Result :=
  writeVx (.orVxVy x y) x (s.v x ||| s.v y) s

/-- 8xy2 AND Vx,Vy (R185): VF is not reset. -/
def execAndVxVy (x y : Nibble) (s : State) : Result :=
  writeVx (.andVxVy x y) x (s.v x &&& s.v y) s

/-- 8xy3 XOR Vx,Vy (R186): VF is not reset. -/
def execXorVxVy (x y : Nibble) (s : State) : Result :=
  writeVx (.xorVxVy x y) x (s.v x ^^^ s.v y) s

/-- 8xy4 ADD Vx,Vy (R187): the carry is written last. -/
def execAddVxVy (x y : Nibble) (s : State) : Result :=
  resolve (.addVxVy x y) s ((s.setV x (s.v x + s.v y)).setVF (carryFlag (s.v x) (s.v y))) .advance

/-- 8xy5 SUB Vx,Vy (R188): the difference is written last. -/
def execSubVxVy (x y : Nibble) (s : State) : Result :=
  writeFlagThenVx (.subVxVy x y) x (noBorrowFlag (s.v x) (s.v y)) (s.v x - s.v y) s

/-- 8xy6 SHR Vx (R190): the shifted value is written last. -/
def execShrVx (x : Nibble) (s : State) : Result :=
  writeFlagThenVx (.shrVx x) x (lowBitFlag (s.v x)) (s.v x >>> 1) s

/-- 8xy7 SUBN Vx,Vy (R189): the difference is written last. -/
def execSubnVxVy (x y : Nibble) (s : State) : Result :=
  writeFlagThenVx (.subnVxVy x y) x (negativeFlag (s.v x) (s.v y)) (s.v y - s.v x) s

/-- 8xyE SHL Vx (R191): the shifted value is written last. -/
def execShlVx (x : Nibble) (s : State) : Result :=
  writeFlagThenVx (.shlVx x) x (highBitFlag (s.v x)) (s.v x <<< 1) s

/-- Cxkk RND Vx,kk (R192): each executed one takes a fresh draw. -/
def execRndVxKk (x : Nibble) (kk : Byte) (s : State) : Result :=
  writeVx (.rndVxKk x kk) x (Config.randByte s.draws &&& kk) { s with draws := s.draws + 1 }

end Sys2Proof.Machine
end

