-- ==== Sys2Proof/Machine/ControlFlow.lean ====
section
/-!
DEFINITION. Return, jump, call and the conditional skips (41_control_flow.md R150 to R159). No control
transfer checks its target (R158).
-/

namespace Sys2Proof.Machine

/-- 00EE RET (R150). -/
def execRet (s : State) : Result :=
  match s.pop with
  | none => raiseIn .ret s .stackUnderflow 0
  | some (t, a) => resolve .ret s t (.jump a)

/-- 1nnn JP nnn (R151). -/
def execJpNnn (nnn : Addr12) (s : State) : Result :=
  resolve (.jpNnn nnn) s s (.jump (absolute nnn))

/-- 2nnn CALL nnn (R152). -/
def execCallNnn (nnn : Addr12) (s : State) : Result :=
  match s.push (returnAddress s) with
  | none => raiseIn (.callNnn nnn) s .stackOverflow 16
  | some t => resolve (.callNnn nnn) s t (.jump (absolute nnn))

/-- 3xkk SE Vx,kk (R153). -/
def execSeVxKk (x : Nibble) (kk : Byte) (s : State) : Result :=
  resolve (.seVxKk x kk) s s (skipIf (s.v x == kk))

/-- 4xkk SNE Vx,kk (R154). -/
def execSneVxKk (x : Nibble) (kk : Byte) (s : State) : Result :=
  resolve (.sneVxKk x kk) s s (skipIf (s.v x != kk))

/-- 5xy0 SE Vx,Vy (R155). -/
def execSeVxVy (x y : Nibble) (s : State) : Result :=
  resolve (.seVxVy x y) s s (skipIf (s.v x == s.v y))

/-- 9xy0 SNE Vx,Vy (R156). -/
def execSneVxVy (x y : Nibble) (s : State) : Result :=
  resolve (.sneVxVy x y) s s (skipIf (s.v x != s.v y))

/-- Bnnn JP V0,nnn (R157): the register is always V0. -/
def execJpV0Nnn (nnn : Addr12) (s : State) : Result :=
  resolve (.jpV0Nnn nnn) s s (.jump (offsetTarget nnn (s.v 0)))

end Sys2Proof.Machine
end

