-- ==== Sys2Proof/Machine/Display.lean ====
section
/-!
DEFINITION. Clearing the screen and drawing a sprite (43_display.md R220 to R226).
-/

namespace Sys2Proof.Machine

/-- 00E0 CLS (R221). -/
def execCls (s : State) : Result :=
  resolve .cls s { s with disp := Grid.unlit, drawPending := true } .advance

/-- The display and the collision flag while a sprite is drawn. -/
abbrev Canvas := Grid × Bool

/-- One sprite cell with bit 1: note a lit cell, then invert it (R222). -/
def drawCell (c : Fin 64) (r : Fin 32) (k : Canvas) : Canvas :=
  (k.1.setCell c r (!k.1.cell c r), k.2 || k.1.cell c r)

/-- The sprite columns `c` of one row, in order: a bit of 0 leaves its cell (R220, R222). -/
def drawColumns (vx : Byte) (line : Fin 32) (row : Byte) : List Nat → Canvas → Canvas
  | [], k => k
  | c :: rest, k =>
    drawColumns vx line row rest
      (if spriteBit row c then drawCell (spriteColumn vx c) line k else k)

/-- The sprite rows from row `r` on, in order. -/
def drawRows (vx vy : Byte) (r : Nat) : List Byte → Canvas → Canvas
  | [], k => k
  | row :: rest, k =>
    drawRows vx vy (r + 1) rest (drawColumns vx (spriteLine vy r) row [0, 1, 2, 3, 4, 5, 6, 7] k)

/-- Dxyn DRW Vx,Vy,n (R222): all reads are checked before any write; VF is written on every DRW. -/
def execDrwVxVyN (x y n : Nibble) (s : State) : Result :=
  match outOfBounds s.base n.toNat with
  | some a => raiseIn (.drwVxVyN x y n) s .memoryOutOfBounds a
  | none =>
    let k := drawRows (s.v x) (s.v y) 0 (s.mem.loadBytes s.base n.toNat) (s.disp, false)
    resolve (.drwVxVyN x y n) s ({ s with disp := k.1, drawPending := true }.setVF (flag k.2)) .advance

end Sys2Proof.Machine
end

