-- ==== Sys2Proof/Machine/IndexMemory.lean ====
section
/-!
DEFINITION. The index register and the transfers through it (45_index_memory.md R260 to R266). Every
access is checked before any write (20_memory.md R64).
-/

namespace Sys2Proof.Machine

/-- Annn LD I,nnn (R260). -/
def execLdINnn (nnn : Addr12) (s : State) : Result :=
  resolve (.ldINnn nnn) s { s with i := absolute nnn } .advance

/-- Fx1E ADD I,Vx (R261): the flag tests the new index. -/
def execAddIVx (x : Nibble) (s : State) : Result :=
  resolve (.addIVx x) s
    ({ s with i := indexSum s.i (s.v x) }.setVF (indexFlag (indexSum s.i (s.v x)))) .advance

/-- Fx29 LD F,Vx (R262). -/
def execLdFVx (x : Nibble) (s : State) : Result :=
  resolve (.ldFVx x) s { s with i := glyphAddress (s.v x) } .advance

/-- Fx33 LD B,Vx (R263). -/
def execLdBVx (x : Nibble) (s : State) : Result :=
  match outOfBounds s.base 3 with
  | some a => raiseIn (.ldBVx x) s .memoryOutOfBounds a
  | none =>
    resolve (.ldBVx x) s { s with mem := s.mem.storeBytes s.base (bcdDigits (s.v x)) } .advance

/-- Fx55 LD [I],Vx (R264): the index moves past the stored bytes. -/
def execLdMemVx (x : Nibble) (s : State) : Result :=
  match outOfBounds s.base (x.toNat + 1) with
  | some a => raiseIn (.ldMemVx x) s .memoryOutOfBounds a
  | none =>
    resolve (.ldMemVx x) s
      { s with mem := s.mem.storeBytes s.base (s.regsUpTo x), i := indexAfterDump s.i x } .advance

/-- Fx65 LD Vx,[I] (R265): the index is left unchanged. -/
def execLdVxMem (x : Nibble) (s : State) : Result :=
  match outOfBounds s.base (x.toNat + 1) with
  | some a => raiseIn (.ldVxMem x) s .memoryOutOfBounds a
  | none =>
    resolve (.ldVxMem x) s
      { s with regs := setRegsFrom 0 (s.mem.loadBytes s.base (x.toNat + 1)) s.regs } .advance

end Sys2Proof.Machine
end

