-- ==== Sys2Proof/Machine/KeysTimers.lean ====
section
/-!
DEFINITION. The key skips, the wait for a key, and the timer moves (44_keys_timers.md R240 to R245).
-/

namespace Sys2Proof.Machine

/-- Ex9E SKP Vx (R240): the key is indexed by the register's value. -/
def execSkpVx (x : Nibble) (s : State) : Result :=
  match keyDown s (s.v x) with
  | none => raiseIn (.skpVx x) s .keyIndexOutOfRange (s.v x).toNat
  | some down => resolve (.skpVx x) s s (skipIf down)

/-- ExA1 SKNP Vx (R241). -/
def execSknpVx (x : Nibble) (s : State) : Result :=
  match keyDown s (s.v x) with
  | none => raiseIn (.sknpVx x) s .keyIndexOutOfRange (s.v x).toNat
  | some down => resolve (.sknpVx x) s s (skipIf (!down))

/-- Fx07 LD Vx,DT (R242). -/
def execLdVxDt (x : Nibble) (s : State) : Result :=
  resolve (.ldVxDt x) s (s.setV x s.dt) .advance

/-- Fx0A LD Vx,K (R243): a flag is set and the step completes; the host's supply_key writes V[X]. -/
def execLdVxK (x : Nibble) (s : State) : Result :=
  resolve (.ldVxK x) s { s with awaitingKey := true, waitReg := x } .advance

/-- Fx15 LD DT,Vx (R244). -/
def execLdDtVx (x : Nibble) (s : State) : Result :=
  resolve (.ldDtVx x) s { s with dt := s.v x } .advance

/-- Fx18 LD ST,Vx (R245). -/
def execLdStVx (x : Nibble) (s : State) : Result :=
  resolve (.ldStVx x) s { s with st := s.v x } .advance

end Sys2Proof.Machine
end

