-- ==== Sys2Proof/Machine/Step.lean ====
section
/-!
DEFINITION. One step of the core (40_engine_pc.md R130, R135): enabled or not, fetch, decode, execute.
-/

namespace Sys2Proof.Machine

/-- One step under a policy STEP_WHILE_AWAITING (R130). Where no step is enabled it answers a fault
that says why; otherwise it answers a next state, with a recorded fault where the fetch, the decoder
or the instruction raises one (R135, R300, R304). -/
def stepWith (policy : Bool) (s : State) : Host.Outcome State Fault Refusal :=
  match stepDisabled policy s with
  | some f => .fault f
  | none =>
    match fetchWord s with
    | .error a => raiseFetch s a
    | .ok op =>
      match decodeWord op with
      | .error _ => raiseUnrecognized s op
      | .ok i => exec i s

/-- One step, with the policy the parameter of R7. -/
def step (s : State) : Host.Outcome State Fault Refusal := stepWith Config.stepWhileAwaiting s

/-- The state with an instruction stored where `step` fetches its next one, at `pc`, as the host
operation that loads an IMAGE would store it. Every instruction has 16 bits (R90), so `nbits` adds
nothing. -/
def State.withFetchWord (s : State) (_nbits w : Nat) : State :=
  { s with mem := s.mem.storeWord s.pc.toNat (BitVec.ofNat 16 w) }

end Sys2Proof.Machine
end

