-- ==== Sys2Proof/Machine/HostOps.lean ====
section
/-!
DEFINITION. The operations by which the host drives the core between steps (60_exceptions.md R308 to
R317), the two reset events (70_reset_and_hazards.md R340 to R344), and a run as the sequence of
operations that the host makes (R316, R317).
-/

namespace Sys2Proof.Machine

/-- The two timers (R313, R318). -/
inductive Timer where
  | delay
  | sound
  deriving DecidableEq, Repr

/-- A field of the state that the host may read (R43, R315). -/
inductive StateField where
  | mem (a : Nat)
  | v (x : Nibble)
  | i
  | pc
  | stack (j : Nibble)
  | sp
  | dt
  | st
  | disp (c : Fin 64) (r : Fin 32)
  | keys (k : Nibble)
  | pendingKey
  | awaitingKey
  | waitReg
  | drawPending
  | fault
  deriving DecidableEq, Repr

/-- The value of a field read. -/
inductive FieldValue where
  | number (n : Nat)
  | bool (b : Bool)
  | fault (r : Option FaultRecord)
  deriving DecidableEq, Repr

/-- One operation of the host (R308). `load` is the spec's "initialize(IMAGE, FONT)". The draw of
`step(rand)` comes from `Config.randByte` (log entry 1). -/
inductive HostOp where
  | load (image font : List Byte)
  | step
  | supplyKey (k : Nat)
  | setKey (k : Nat) (down : Bool)
  | tickTimer (t : Timer)
  | ackRender
  | read (f : StateField)
  deriving DecidableEq, Repr

/-! ### Reset (R340 to R344) -/

/-- FONT as the list of its 80 bytes. -/
def fontBytes : List Byte := Config.font.toList

/-- Power-on creation alone (R340, R341): every field 0, false, unlit or none, `pc` 0x200, and every
byte of memory 0 (the glyph addresses too, since FONT is not loaded yet). -/
def State.powerOn : State :=
  { State.reset with mem := Memory.storeBytes [] 0 (List.replicate 80 0) }

/-- "initialize(IMAGE, FONT)" (R342), refused for a FONT that is not 80 bytes or an IMAGE over 3584
(R344). Everything it does not name stays as it is. -/
def hostLoad (image font : List Byte) (s : State) : Result :=
  if font.length ≠ 80 then .refused (.fontNot80Bytes font.length)
  else if image.length > 3584 then .refused (.imageTooLong image.length)
  else .next
    { s with
      mem := (s.mem.storeBytes 0x000 font).storeBytes 0x200 image
      pc := 0x200
      regs := Vector.replicate 16 0
      i := 0
      sp := 0
      fault := none
      awaitingKey := false }

/-! ### Keys, timers, render (R311 to R314) -/

/-- `supply_key(k)` for a key value 0x0..0xF (R311). -/
def State.supplyKey (k : Nibble) (s : State) : State :=
  if s.awaitingKey then
    { s.setV s.waitReg (k.zeroExtend 8) with pendingKey := k, awaitingKey := false }
  else { s with pendingKey := k }

/-- `supply_key(k)`, refused above 0xF (R311, R323). -/
def hostSupplyKey (k : Nat) (s : State) : Result :=
  if k < 16 then .next (s.supplyKey (BitVec.ofNat 4 k)) else .refused (.keyValueOutOfRange k)

/-- `set_key(i, down)`, refused above 0xF (R312, R323). -/
def hostSetKey (k : Nat) (down : Bool) (s : State) : Result :=
  if h : k < 16 then .next { s with keys := s.keys.set k down h } else .refused (.keyIndexNotAKey k)

/-- One tick: a timer counts down and stops at 0 (R313). -/
def countDown (t : Byte) : Byte := if t.toNat > 0 then t - 1 else t

/-- `tick_timer(t)` (R313). -/
def hostTickTimer (t : Timer) (s : State) : Result :=
  match t with
  | .delay => .next { s with dt := countDown s.dt }
  | .sound => .next { s with st := countDown s.st }

/-- `ack_render()` (R314). -/
def hostAckRender (s : State) : Result := .next { s with drawPending := false }

/-- `read` of a field (R315). A memory field above 0xFFF does not exist. -/
def readField (s : State) : StateField → Option FieldValue
  | .mem a => if a < memSize then some (.number (s.mem.read a).toNat) else none
  | .v x => some (.number (s.v x).toNat)
  | .i => some (.number s.i.toNat)
  | .pc => some (.number s.pc.toNat)
  | .stack j => some (.number (s.stack[j.toNat]'j.isLt).toNat)
  | .sp => some (.number s.sp.val)
  | .dt => some (.number s.dt.toNat)
  | .st => some (.number s.st.toNat)
  | .disp c r => some (.bool (Grid.cell s.disp c r))
  | .keys k => some (.bool (s.keys[k.toNat]'k.isLt))
  | .pendingKey => some (.number s.pendingKey.toNat)
  | .awaitingKey => some (.bool s.awaitingKey)
  | .waitReg => some (.number s.waitReg.toNat)
  | .drawPending => some (.bool s.drawPending)
  | .fault => some (.fault s.fault)

/-! ### Runs (R316, R317) -/

/-- The effect of one operation of the host on the state, under a policy STEP_WHILE_AWAITING. Reading
has none (R315). -/
def perform (policy : Bool) (op : HostOp) (s : State) : Result :=
  match op with
  | .load image font => hostLoad image font s
  | .step => stepWith policy s
  | .supplyKey k => hostSupplyKey k s
  | .setKey k down => hostSetKey k down s
  | .tickTimer t => hostTickTimer t s
  | .ackRender => hostAckRender s
  | .read _ => .next s

/-- A run: the operations in the host's total order, each finished before the next begins (R316). The
host may make any operations in any order between two steps (R317), so a claim about runs quantifies
over the list. -/
def performAll (policy : Bool) : List HostOp → State → Result
  | [], s => .next s
  | op :: rest, s =>
    match perform policy op s with
    | .next t => performAll policy rest t
    | .fault f => .fault f
    | .refused r => .refused r

end Sys2Proof.Machine
end

