-- ==== Sys2Proof/Safety.lean ====
section
/-!
DEFINITION. What counts as a good or an ended run (60_exceptions.md R303, R324), and the invariant that
every operation keeps: the counter's and the stack's bounds (40_engine_pc.md R134) and memory's
canonical form.
-/

namespace Sys2Proof.Machine

/-- A state of a safe run holds no recorded fault: a faulted state is never a good one (R303, R324 (a)). -/
abbrev State.Good (s : State) : Prop := s.fault = none

/-- R324 (a): the run has faulted. -/
abbrev State.Faulted (s : State) : Prop := s.fault ≠ none

/-- R324 (b): the word at `pc` is the self-jump `1nnn` with `nnn = pc`. -/
abbrev State.Idle (s : State) : Prop :=
  s.pc.toNat < 0xFFF ∧
    joinBytes (s.mem.read s.pc.toNat) (s.mem.read (s.pc.toNat + 1)) = 0x1000 + s.pc

/-- R324 (c): blocked on a key. A key is awaited under a policy that enables no step meanwhile, and the
host supplies none in `rest`, the operations that it still makes in this run. A wait that a later
supply_key ends is no end of the run. Log entry 18. -/
abbrev State.Blocked (policy : Bool) (rest : List HostOp) (s : State) : Prop :=
  s.awaitingKey = true ∧ policy = false ∧ ∀ k, HostOp.supplyKey k ∉ rest

/-- The run, of which the host still makes the operations `rest`, is over (R324). -/
abbrev State.Ended (policy : Bool) (rest : List HostOp) (s : State) : Prop :=
  s.Faulted ∨ s.Idle ∨ s.Blocked policy rest

/-- A step is enabled (R130). -/
abbrev State.Enabled (policy : Bool) (s : State) : Prop :=
  s.fault = none ∧ (s.awaitingKey = false ∨ policy = true)

/-- The word that a step at this state fetches, where both its bytes exist (R66). -/
abbrev State.fetchedWord (s : State) : Word :=
  joinBytes (s.mem.read s.pc.toNat) (s.mem.read (s.pc.toNat + 1))

/-- The cell at column c, row r lies under a 1 bit of the sprite of `n` rows drawn at (vx, vy): the bit
of sprite row j and column b, most significant bit first, lands at ((vx + b) mod 64, (vy + j) mod 32)
(R220). -/
def State.SpriteCovers (s : State) (vx vy : Byte) (n : Nat) (c : Fin 64) (r : Fin 32) : Prop :=
  ∃ j < n, ∃ b < 8, c.val = (vx.toNat + b) % 64 ∧ r.val = (vy.toNat + j) % 32 ∧
    (s.mem.read (s.i.toNat + j)).getLsbD (7 - b) = true

/-- The fetch of any step enabled at this state faults, with `a` the address of the byte that does not
exist (R135), and changes nothing else. -/
def FetchFails (s : State) (a : Nat) : Prop :=
  ∀ policy, s.Enabled policy →
    stepWith policy s = .next { s with fault := some ⟨.memoryOutOfBounds, s.pc, none, a⟩ }

/-- An instruction that accesses memory, with the number of bytes it touches from I on (R69). -/
inductive TouchesFromI : Instr → Nat → Prop where
  | drw (x y n : Nibble) : TouchesFromI (.drwVxVyN x y n) n.toNat
  | bcd (x : Nibble) : TouchesFromI (.ldBVx x) 3
  | dump (x : Nibble) : TouchesFromI (.ldMemVx x) (x.toNat + 1)
  | load (x : Nibble) : TouchesFromI (.ldVxMem x) (x.toNat + 1)

/-- The invariant of every run: memory is in canonical form; `pc` is below 0x10FF and every stack
entry is a return address of at most 0x1000 (R134). `sp`'s range 0..16 (R28) is its type's. -/
structure State.Inv (s : State) : Prop where
  mem_wf : s.mem.wf
  pc_bound : s.pc.toNat ≤ 0x10FE
  stack_bound : ∀ j : Fin 16, s.stack[j.val].toNat ≤ 0x1000

end Sys2Proof.Machine
end

