-- ==== Sys2Proof/Certificates/Slice0/Obligations.lean ====
section
/-!
DEFINITION. The statements for the provers. Each is about the core, none about a program; its docstring
names the rule of spec/ that it formalises. An equation `t = { s with … := t.…, … }` is the frame: every
field not named is as in `s`.
-/

open Sys2Proof Sys2Proof.Machine

/-! ### Encoding and decoding -/

/-- R90, R91, R92, R96, R66: the two bytes of every instruction's word, high byte first, decode to it,
and the bytes after them are left. -/
def Obligations.DecodeOfEncodeIsIdentity : Prop :=
  ∀ (i : Instr) (rest : List Byte),
    decodeBytes (highByte (encode i) :: lowByte (encode i) :: rest) = .ok (i, rest)

/-- R94: a decoded word has its instruction's fixed bits, and no bit of it is lost but the ignored y of
SHR and SHL, for which any y selects the same instruction. That their encoding has y zero is the model's
own choice (log entry 8). -/
def Obligations.DecodingLosesOnlyTheIgnoredField : Prop :=
  (∀ (w : Word) (i : Instr), decodeWord w = .ok i →
    i.row.fits w = true ∧
    (((∃ x, i = .shrVx x) ∨ (∃ x, i = .shlVx x)) → encode i = w &&& 0xFF0F) ∧
    ((∀ x, i ≠ .shrVx x) → (∀ x, i ≠ .shlVx x) → encode i = w)) ∧
  ∀ x y : Nibble,
    decodeWord (packXyn 0x8 x y 0x6) = .ok (.shrVx x) ∧
    decodeWord (packXyn 0x8 x y 0xE) = .ok (.shlVx x)

/-- R97 to R102: exactly the words of the five rules are unrecognized; the decoder names the raw word,
and an enabled step that fetches one records UnrecognizedInstruction and does nothing else. -/
def Obligations.UnrecognizedWordsAreExactlyTheListed : Prop :=
  ∀ w : Word,
    ((decodeWord w = .error (.unrecognized w)) ↔
      ((w.toNat / 4096 = 0x0 ∧ w.toNat ≠ 0x00E0 ∧ w.toNat ≠ 0x00EE) ∨
       (w.toNat / 4096 = 0x5 ∧ w.toNat % 16 ≠ 0) ∨
       (w.toNat / 4096 = 0x9 ∧ w.toNat % 16 ≠ 0) ∨
       (w.toNat / 4096 = 0x8 ∧ w.toNat % 16 ∈ [0x8, 0x9, 0xA, 0xB, 0xC, 0xD, 0xF]) ∨
       (w.toNat / 4096 = 0xE ∧ w.toNat % 256 ∉ [0x9E, 0xA1]) ∨
       (w.toNat / 4096 = 0xF ∧
         w.toNat % 256 ∉ [0x07, 0x0A, 0x15, 0x18, 0x1E, 0x29, 0x33, 0x55, 0x65]))) ∧
    ((∃ i, decodeWord w = .ok i) ∨ decodeWord w = .error (.unrecognized w)) ∧
    ∀ (policy : Bool) (s : State), s.Enabled policy → s.pc.toNat < 0xFFF → s.fetchedWord = w →
      decodeWord w = .error (.unrecognized w) →
      stepWith policy s = .next { s with
        fault := some ⟨.unrecognizedInstruction, s.pc, some w, w.toNat⟩ }

/-- R103: no word fits two rows of the opcode map, and the decoder recognizes exactly the words that
fit one. -/
def Obligations.OpcodeMapIsUnambiguous : Prop :=
  ∀ w : Word,
    (opcodeRows.filter fun r => r.fits w).length = (if (decodeWord w).isOk then 1 else 0)

/-- R96, sanity: the source's four example words, and one word of each other family. -/
def Obligations.SampleWordsDecode : Prop :=
  decodeWord 0x6005 = .ok (.ldVxKk 0x0 0x05) ∧
  decodeWord 0x7003 = .ok (.addVxKk 0x0 0x03) ∧
  decodeWord 0xA200 = .ok (.ldINnn 0x200) ∧
  decodeWord 0xD005 = .ok (.drwVxVyN 0x0 0x0 0x5) ∧
  decodeWord 0x2300 = .ok (.callNnn 0x300) ∧
  decodeWord 0x8127 = .ok (.subnVxVy 0x1 0x2) ∧
  decodeWord 0xE29E = .ok (.skpVx 0x2) ∧
  decodeWord 0xF30A = .ok (.ldVxK 0x3) ∧
  decodeWord 0xF255 = .ok (.ldMemVx 0x2)

/-! ### The step -/

/-- R66, R135: the instruction word is the byte at pc (high) followed by the byte at pc + 1 (low); when a
step is enabled (R130) and the word decodes to an instruction, the step is that instruction. That `step`
takes the policy STEP_WHILE_AWAITING from an opaque constant is the model's choice (log entry 2). -/
def Obligations.StepRunsTheDecodedInstruction : Prop :=
  (∀ (policy : Bool) (s : State) (op : Word) (i : Instr), s.Enabled policy → s.pc.toNat < 0xFFF →
    op.toNat = (s.mem.read s.pc.toNat).toNat * 256 + (s.mem.read (s.pc.toNat + 1)).toNat →
    decodeWord op = .ok i → stepWith policy s = exec i s) ∧
  ∀ s, step s = stepWith Config.stepWhileAwaiting s

/-- R135, R304: a fetch whose first or second byte does not exist records MemoryOutOfBounds with that
byte's address and no opcode, and does nothing else. -/
def Obligations.FetchBeyondMemoryFaults : Prop :=
  ∀ (policy : Bool) (s : State), s.Enabled policy →
    (0x1000 ≤ s.pc.toNat → stepWith policy s = .next { s with
      fault := some ⟨.memoryOutOfBounds, s.pc, none, s.pc.toNat⟩ }) ∧
    (s.pc.toNat = 0xFFF → stepWith policy s = .next { s with
      fault := some ⟨.memoryOutOfBounds, s.pc, none, 0x1000⟩ })

/-- R130: a step is enabled exactly when there is no fault and no wait for a key that the policy
respects; an enabled step always answers a next state, and a disabled one says which of the two holds. -/
def Obligations.StepCompletesExactlyWhenEnabled : Prop :=
  ∀ (policy : Bool) (s : State),
    ((∃ t, stepWith policy s = .next t) ↔
      (s.fault = none ∧ (s.awaitingKey = false ∨ policy = true))) ∧
    (∀ r, s.fault = some r → stepWith policy s = .fault (.halted r)) ∧
    (s.fault = none → s.awaitingKey = true → policy = false →
      stepWith policy s = .fault .blockedAwaitingKey)

/-- R136: a step that records a fault changes nothing else, and its record holds the address of the
faulting instruction; the core is then halted (R300). -/
def Obligations.FaultsArePrecise : Prop :=
  ∀ (policy : Bool) (s t : State), s.Enabled policy → stepWith policy s = .next t → t.fault ≠ none →
    ∃ r : FaultRecord, t = { s with fault := some r } ∧ t.pc = s.pc ∧ r.pc = s.pc ∧
      ∀ policy', stepWith policy' t = .fault (.halted r)

/-- R302: the fault record's pc, and its opcode, none exactly when the fetch itself faulted; for an
unrecognized word, opcode and info are the same word. -/
def Obligations.FaultRecordHoldsTheFetchedWord : Prop :=
  ∀ (policy : Bool) (s t : State) (r : FaultRecord), s.Enabled policy →
    stepWith policy s = .next t → t.fault = some r →
    r.pc = s.pc ∧
    (0xFFF ≤ s.pc.toNat → r.opcode = none) ∧
    (s.pc.toNat < 0xFFF → r.opcode = some s.fetchedWord) ∧
    (r.kind = .unrecognizedInstruction → ∃ w, r.opcode = some w ∧ r.info = w.toNat)

/-- R301: the code, the cause and the recorded info of every fault that a step records. The resolver's
InternalInconsistency is never raised. -/
def Obligations.EveryFaultHasItsListedCause : Prop :=
  ∀ (policy : Bool) (s t : State) (r : FaultRecord), s.Enabled policy →
    stepWith policy s = .next t → t.fault = some r →
    (r.code = 1 ∧ r.kind = .unrecognizedInstruction ∧ s.pc.toNat < 0xFFF ∧
      decodeWord s.fetchedWord = .error (.unrecognized s.fetchedWord) ∧
      r.info = s.fetchedWord.toNat) ∨
    (r.code = 3 ∧ r.kind = .stackOverflow ∧ s.pc.toNat < 0xFFF ∧ s.sp.val = 16 ∧ r.info = 16 ∧
      ∃ nnn, decodeWord s.fetchedWord = .ok (.callNnn nnn)) ∨
    (r.code = 4 ∧ r.kind = .stackUnderflow ∧ s.pc.toNat < 0xFFF ∧ s.sp.val = 0 ∧ r.info = 0 ∧
      decodeWord s.fetchedWord = .ok .ret) ∨
    (r.code = 5 ∧ r.kind = .memoryOutOfBounds ∧
      ((0xFFF ≤ s.pc.toNat ∧ r.info = max s.pc.toNat 0x1000) ∨
       (s.pc.toNat < 0xFFF ∧ r.info = max s.i.toNat 0x1000 ∧
        ∃ i count, decodeWord s.fetchedWord = .ok i ∧ TouchesFromI i count ∧ 0 < count ∧
          0x1000 < s.i.toNat + count))) ∨
    (r.code = 6 ∧ r.kind = .keyIndexOutOfRange ∧ s.pc.toNat < 0xFFF ∧
      ∃ x, (decodeWord s.fetchedWord = .ok (.skpVx x) ∨ decodeWord s.fetchedWord = .ok (.sknpVx x)) ∧
        0xF < (s.v x).toNat ∧ r.info = (s.v x).toNat)

/-- R134, R28, R61: every step keeps the invariant: pc below 0x10FF, return addresses at most 0x1000,
memory in canonical form. -/
def Obligations.EveryStepKeepsTheInvariant : Prop :=
  ∀ (policy : Bool) (s t : State), s.Inv → stepWith policy s = .next t → t.Inv

/-- R134, R42: the invariant holds at reset. -/
def Obligations.ResetMeetsTheInvariant : Prop := State.reset.Inv

/-- R317: every sequence of the host's operations, in any order, keeps the invariant; so it holds after
every run from reset. -/
def Obligations.EveryRunKeepsTheInvariant : Prop :=
  ∀ (policy : Bool) (ops : List HostOp) (s t : State),
    s.Inv → performAll policy ops s = .next t → t.Inv

/-- R139: a step that does not run Cxkk does not read the random draw: from a state with another
draw count it answers the same state, but for that count. -/
def Obligations.OnlyRndReadsTheDraw : Prop :=
  ∀ (policy : Bool) (s t : State) (n : Nat),
    (∀ x kk, decodeWord s.fetchedWord ≠ .ok (.rndVxKk x kk)) →
    stepWith policy s = .next t →
    t.draws = s.draws ∧ stepWith policy { s with draws := n } = .next { t with draws := n }

/-- R43: an instruction cannot observe ST, draw_pending, awaiting_key, wait_reg or pending_key: what
they hold makes no difference to anything else that it leaves. -/
def Obligations.ProgramsCannotObserveHostFields : Prop :=
  ∀ (i : Instr) (s t : State) (st : Byte) (dp aw : Bool) (wr pk : Nibble),
    exec i s = .next t →
    ∃ t', exec i { s with st := st, drawPending := dp, awaitingKey := aw, waitReg := wr, pendingKey := pk } =
        .next t' ∧
      t' = { t with st := t'.st, drawPending := t'.drawPending, awaitingKey := t'.awaitingKey,
                    waitReg := t'.waitReg, pendingKey := t'.pendingKey }

/-! ### Who writes what: rules about every instruction -/

/-- R24, R22: the registers that an instruction can change. VF changes only under a flag-writing
instruction or one that names it as its destination. -/
def Obligations.OnlyTheListedRegistersChange : Prop :=
  ∀ (i : Instr) (s t : State) (r : Nibble), exec i s = .next t → t.v r ≠ s.v r →
    (∃ kk, i = .ldVxKk r kk ∨ i = .addVxKk r kk ∨ i = .rndVxKk r kk) ∨
    (∃ y, i = .ldVxVy r y ∨ i = .orVxVy r y ∨ i = .andVxVy r y ∨ i = .xorVxVy r y ∨
      i = .addVxVy r y ∨ i = .subVxVy r y ∨ i = .subnVxVy r y) ∨
    i = .shrVx r ∨ i = .shlVx r ∨ i = .ldVxDt r ∨
    (∃ x, i = .ldVxMem x ∧ r.toNat ≤ x.toNat) ∨
    (r = 0xF ∧
      ((∃ x y, i = .addVxVy x y ∨ i = .subVxVy x y ∨ i = .subnVxVy x y) ∨
       (∃ x, i = .shrVx x ∨ i = .shlVx x ∨ i = .addIVx x) ∨
       (∃ x y n, i = .drwVxVyN x y n)))

/-- R26, R27, R28, R29, R30, R69: who writes the index register, the stack, the stack pointer, the
timers and memory. -/
def Obligations.SpecialRegistersHaveTheirListedWriters : Prop :=
  ∀ (i : Instr) (s t : State), exec i s = .next t →
    (t.i ≠ s.i → (∃ nnn, i = .ldINnn nnn) ∨ ∃ x, i = .addIVx x ∨ i = .ldFVx x ∨ i = .ldMemVx x) ∧
    (t.stack ≠ s.stack → ∃ nnn, i = .callNnn nnn) ∧
    (t.sp ≠ s.sp → i = .ret ∨ ∃ nnn, i = .callNnn nnn) ∧
    (t.dt ≠ s.dt → ∃ x, i = .ldDtVx x) ∧
    (t.st ≠ s.st → ∃ x, i = .ldStVx x) ∧
    (t.mem ≠ s.mem → ∃ x, i = .ldBVx x ∨ i = .ldMemVx x)

/-- R31, R225: CLS and DRW alone change the display; both set draw_pending, unless a DRW faults, which
then records its fault and does nothing else; and no instruction clears it. -/
def Obligations.DisplayHasTwoWriters : Prop :=
  ∀ (i : Instr) (s t : State), exec i s = .next t →
    (t.disp ≠ s.disp → i = .cls ∨ ∃ x y n, i = .drwVxVyN x y n) ∧
    (t.drawPending ≠ s.drawPending → i = .cls ∨ ∃ x y n, i = .drwVxVyN x y n) ∧
    (i = .cls → t.drawPending = true) ∧
    ((∃ x y n, i = .drwVxVyN x y n) → t.drawPending = true ∨
      ∃ r : FaultRecord, r.kind = .memoryOutOfBounds ∧ t = { s with fault := some r }) ∧
    (s.drawPending = true → t.drawPending = true)

/-- R32, R33, R34, R35: no instruction writes the key states or pending_key, and Fx0A alone changes the
awaiting-input flag, which it sets, and wait_reg, which it sets to X. -/
def Obligations.InputStateIsTheHosts : Prop :=
  ∀ (i : Instr) (s t : State), exec i s = .next t →
    t.keys = s.keys ∧ t.pendingKey = s.pendingKey ∧
    ((t.awaitingKey ≠ s.awaitingKey ∨ t.waitReg ≠ s.waitReg) →
      ∃ x, i = .ldVxK x ∧ t.awaitingKey = true ∧ t.waitReg = x)

/-! ### Control flow -/

/-- R150: RET, with an entry on the stack and with none. -/
def Obligations.ReturnPopsTheStack : Prop :=
  ∀ s : State,
    (∀ h : 0 < s.sp.val, ∃ t, exec .ret s = .next t ∧ t = { s with sp := t.sp, pc := t.pc } ∧
      t.sp.val + 1 = s.sp.val ∧ t.pc = s.stack[s.sp.val - 1]'(by omega)) ∧
    (s.sp.val = 0 → exec .ret s = .next { s with
      fault := some ⟨.stackUnderflow, s.pc, some 0x00EE, 0⟩ })

/-- R152: CALL, with a free entry and with none. -/
def Obligations.CallPushesTheReturnAddress : Prop :=
  ∀ (nnn : Addr12) (s : State),
    (s.sp.val < 16 → ∃ t, exec (.callNnn nnn) s = .next t ∧
      t = { s with stack := t.stack, sp := t.sp, pc := t.pc } ∧
      t.sp.val = s.sp.val + 1 ∧ t.pc.toNat = nnn.toNat ∧
      ∀ j : Fin 16, t.stack[j.val] = if j.val = s.sp.val then s.pc + 2 else s.stack[j.val]) ∧
    (s.sp.val = 16 → exec (.callNnn nnn) s = .next { s with
      fault := some ⟨.stackOverflow, s.pc, some (BitVec.ofNat 16 (0x2000 + nnn.toNat)), 16⟩ })

/-- R159: a call and then a return, from any state that has kept the stack, come back to the address
after the call with the stack pointer as it was. -/
def Obligations.CallThenReturnComesBack : Prop :=
  ∀ (nnn : Addr12) (s t u : State), exec (.callNnn nnn) s = .next t → s.sp.val < 16 →
    u.stack = t.stack → u.sp = t.sp →
    t.regs = s.regs ∧
    ∃ w, exec .ret u = .next w ∧ w.pc = s.pc + 2 ∧ w.sp = s.sp ∧ w.regs = u.regs

/-- R151: JP goes to NNN and changes nothing else; the target is not checked before the next fetch. -/
def Obligations.JumpGoesToItsAddress : Prop :=
  ∀ nnn : Addr12,
    decodeWord (packNnn 0x1 nnn) = .ok (.jpNnn nnn) ∧
    ∀ s : State, ∃ t, exec (.jpNnn nnn) s = .next t ∧ t = { s with pc := t.pc } ∧
      t.pc.toNat = nnn.toNat ∧
      (nnn = 0xFFF → FetchFails t 0x1000) ∧
      (nnn.toNat = s.pc.toNat → t = s)

/-- R157: JP V0 goes to the unmasked sum NNN + V0 (decision D10 of the spec) and changes nothing else; a
target of 0xFFF or more faults at the next fetch. -/
def Obligations.JumpWithOffsetAddsRegisterZero : Prop :=
  ∀ (nnn : Addr12) (s : State), ∃ t, exec (.jpV0Nnn nnn) s = .next t ∧ t = { s with pc := t.pc } ∧
    t.pc.toNat = nnn.toNat + (s.v 0).toNat ∧ t.pc.toNat ≤ 0x10FE ∧
    (0xFFF ≤ t.pc.toNat → FetchFails t (max t.pc.toNat 0x1000))

/-- R153 to R156: the conditional skips move pc by 4 when their comparison holds and by 2 when not, and
change nothing else. -/
def Obligations.SkipsCompareAndMoveTheCounter : Prop :=
  ∀ (x y : Nibble) (kk : Byte),
    decodeWord (packXkk 0x3 x kk) = .ok (.seVxKk x kk) ∧
    decodeWord (packXkk 0x4 x kk) = .ok (.sneVxKk x kk) ∧
    decodeWord (packXyn 0x5 x y 0x0) = .ok (.seVxVy x y) ∧
    decodeWord (packXyn 0x9 x y 0x0) = .ok (.sneVxVy x y) ∧
    ∀ s : State,
      exec (.seVxKk x kk) s = .next { s with pc := s.pc + if (s.v x).toNat = kk.toNat then 4 else 2 } ∧
      exec (.sneVxKk x kk) s = .next { s with pc := s.pc + if (s.v x).toNat = kk.toNat then 2 else 4 } ∧
      exec (.seVxVy x y) s =
        .next { s with pc := s.pc + if (s.v x).toNat = (s.v y).toNat then 4 else 2 } ∧
      exec (.sneVxVy x y) s =
        .next { s with pc := s.pc + if (s.v x).toNat = (s.v y).toNat then 2 else 4 }

/-! ### ALU, immediate loads and random -/

/-- R183 to R186: copy, OR, AND and XOR write their result to V[X], bit by bit for the logic, and nothing
else but pc; VF is not reset. -/
def Obligations.CopyAndLogicWriteOneRegister : Prop :=
  ∀ x y : Nibble,
    decodeWord (packXyn 0x8 x y 0x0) = .ok (.ldVxVy x y) ∧
    decodeWord (packXyn 0x8 x y 0x1) = .ok (.orVxVy x y) ∧
    decodeWord (packXyn 0x8 x y 0x2) = .ok (.andVxVy x y) ∧
    decodeWord (packXyn 0x8 x y 0x3) = .ok (.xorVxVy x y) ∧
    ∀ s : State,
      (∃ t, exec (.ldVxVy x y) s = .next t ∧ t = { s with regs := t.regs, pc := s.pc + 2 } ∧
        ∀ r, t.v r = if r = x then s.v y else s.v r) ∧
      (∃ t, exec (.orVxVy x y) s = .next t ∧ t = { s with regs := t.regs, pc := s.pc + 2 } ∧
        (∀ b, (t.v x).getLsbD b = ((s.v x).getLsbD b || (s.v y).getLsbD b)) ∧
        ∀ r, r ≠ x → t.v r = s.v r) ∧
      (∃ t, exec (.andVxVy x y) s = .next t ∧ t = { s with regs := t.regs, pc := s.pc + 2 } ∧
        (∀ b, (t.v x).getLsbD b = ((s.v x).getLsbD b && (s.v y).getLsbD b)) ∧
        ∀ r, r ≠ x → t.v r = s.v r) ∧
      (∃ t, exec (.xorVxVy x y) s = .next t ∧ t = { s with regs := t.regs, pc := s.pc + 2 } ∧
        (∀ b, (t.v x).getLsbD b = ((s.v x).getLsbD b ^^ (s.v y).getLsbD b)) ∧
        ∀ r, r ≠ x → t.v r = s.v r)

/-- R181, R182: the immediate load and the immediate add; the sum wraps at 8 bits and sets no flag. -/
def Obligations.ImmediateFormsWriteOneRegister : Prop :=
  ∀ (x : Nibble) (kk : Byte),
    decodeWord (packXkk 0x6 x kk) = .ok (.ldVxKk x kk) ∧
    decodeWord (packXkk 0x7 x kk) = .ok (.addVxKk x kk) ∧
    ∀ s : State,
      (∃ t, exec (.ldVxKk x kk) s = .next t ∧ t = { s with regs := t.regs, pc := s.pc + 2 } ∧
        ∀ r, t.v r = if r = x then kk else s.v r) ∧
      (∃ t, exec (.addVxKk x kk) s = .next t ∧ t = { s with regs := t.regs, pc := s.pc + 2 } ∧
        (t.v x).toNat = ((s.v x).toNat + kk.toNat) % 256 ∧
        ∀ r, r ≠ x → t.v r = s.v r)

/-- R187: ADD Vx,Vy; the carry is written last, so with X = 0xF it is what VF holds. -/
def Obligations.AddWritesSumThenCarry : Prop :=
  ∀ x y : Nibble, decodeWord (packXyn 0x8 x y 0x4) = .ok (.addVxVy x y) ∧
    ∀ s : State, ∃ t, exec (.addVxVy x y) s = .next t ∧
      t = { s with regs := t.regs, pc := s.pc + 2 } ∧
      (x ≠ 0xF → (t.v x).toNat = ((s.v x).toNat + (s.v y).toNat) % 256) ∧
      (t.v 0xF).toNat = (if (s.v x).toNat + (s.v y).toNat > 255 then 1 else 0) ∧
      ∀ r, r ≠ x → r ≠ 0xF → t.v r = s.v r

/-- R188: SUB Vx,Vy; the difference is written last, so with X = 0xF it is what VF holds. -/
def Obligations.SubtractWritesNoBorrowThenDifference : Prop :=
  ∀ x y : Nibble, decodeWord (packXyn 0x8 x y 0x5) = .ok (.subVxVy x y) ∧
    ∀ s : State, ∃ t, exec (.subVxVy x y) s = .next t ∧
      t = { s with regs := t.regs, pc := s.pc + 2 } ∧
      ((t.v x).toNat : Int) = ((s.v x).toNat - (s.v y).toNat : Int) % 256 ∧
      (x ≠ 0xF → (t.v 0xF).toNat = if (s.v x).toNat > (s.v y).toNat then 1 else 0) ∧
      ∀ r, r ≠ x → r ≠ 0xF → t.v r = s.v r

/-- R189: SUBN Vx,Vy; the flag is the sign of the difference over the integers. -/
def Obligations.ReverseSubtractWritesSignThenDifference : Prop :=
  ∀ x y : Nibble, decodeWord (packXyn 0x8 x y 0x7) = .ok (.subnVxVy x y) ∧
    ∀ s : State, ∃ t, exec (.subnVxVy x y) s = .next t ∧
      t = { s with regs := t.regs, pc := s.pc + 2 } ∧
      ((t.v x).toNat : Int) = ((s.v y).toNat - (s.v x).toNat : Int) % 256 ∧
      (x ≠ 0xF → (t.v 0xF).toNat = if ((s.v y).toNat - (s.v x).toNat : Int) < 0 then 1 else 0) ∧
      ∀ r, r ≠ x → r ≠ 0xF → t.v r = s.v r

/-- R194: the two subtractions set VF under the same condition and compute opposite differences. -/
def Obligations.SubtractionsAgreeOnTheFlag : Prop :=
  ∀ (x y : Nibble) (s : State), x ≠ 0xF →
    ∃ t u, exec (.subVxVy x y) s = .next t ∧ exec (.subnVxVy x y) s = .next u ∧
      t.v 0xF = u.v 0xF ∧ (t.v 0xF = 1 ↔ (s.v x).toNat > (s.v y).toNat) ∧
      (t.v 0xF = 0 ∨ t.v 0xF = 1) ∧ t.v x + u.v x = 0

/-- R190: SHR; the bit shifted out goes to VF as 0 or 1, the shifted value is written last, and the word's
Y does not matter. -/
def Obligations.ShiftRightMovesBitZeroIntoTheFlag : Prop :=
  ∀ x : Nibble,
    (∀ y : Nibble, decodeWord (packXyn 0x8 x y 0x6) = .ok (.shrVx x)) ∧
    ∀ s : State, ∃ t, exec (.shrVx x) s = .next t ∧ t = { s with regs := t.regs, pc := s.pc + 2 } ∧
      (t.v x).toNat = (s.v x).toNat / 2 ∧
      (x ≠ 0xF → (t.v 0xF).toNat = (s.v x).toNat % 2) ∧
      ∀ r, r ≠ x → r ≠ 0xF → t.v r = s.v r

/-- R191: SHL; the bit shifted out goes to VF as 0 or 1, not 0x80 (decision D23 of the spec), and the
shifted value is written last. -/
def Obligations.ShiftLeftMovesBitSevenIntoTheFlag : Prop :=
  ∀ (x : Nibble) (s : State), ∃ t, exec (.shlVx x) s = .next t ∧
    t = { s with regs := t.regs, pc := s.pc + 2 } ∧
    (t.v x).toNat = (s.v x).toNat * 2 % 256 ∧
    (x ≠ 0xF → (t.v 0xF).toNat = (s.v x).toNat / 128) ∧
    ∀ r, r ≠ x → r ≠ 0xF → t.v r = s.v r

/-- R192: RND takes the next draw, whatever byte it is, and masks it with KK. The draw is the free value
`Config.randByte`, counted by the model's own field `draws` (log entry 1). -/
def Obligations.RandomMasksAFreshDraw : Prop :=
  ∀ (x : Nibble) (kk : Byte) (s : State), ∃ t, exec (.rndVxKk x kk) s = .next t ∧
    t = { s with regs := t.regs, pc := s.pc + 2, draws := s.draws + 1 } ∧
    (∀ b, (t.v x).getLsbD b = ((Config.randByte s.draws).getLsbD b && kk.getLsbD b)) ∧
    (kk = 0 → t.v x = 0) ∧
    ∀ r, r ≠ x → t.v r = s.v r

/-! ### Display -/

/-- R221: CLS. -/
def Obligations.ClearScreenUnlightsEveryCell : Prop :=
  decodeWord 0x00E0 = .ok .cls ∧
  ∀ s : State, ∃ t, exec .cls s = .next t ∧
    t = { s with disp := t.disp, drawPending := true, pc := s.pc + 2 } ∧
    ∀ c r, Grid.cell t.disp c r = false

/-- R220, R222, R223 (which the spec derives from R222): DRW inverts exactly the cells under a 1 bit of the sprite, wrapping at the edges,
and VF says whether one of them was lit. -/
def Obligations.DrawInvertsTheCoveredCells : Prop :=
  ∀ (x y n : Nibble) (s : State), n.toNat = 0 ∨ s.i.toNat + n.toNat ≤ 0x1000 →
    ∃ t, exec (.drwVxVyN x y n) s = .next t ∧
      t = { s with regs := t.regs, disp := t.disp, drawPending := true, pc := s.pc + 2 } ∧
      (∀ r, r ≠ 0xF → t.v r = s.v r) ∧
      (∀ c r, s.SpriteCovers (s.v x) (s.v y) n.toNat c r →
        Grid.cell t.disp c r = !Grid.cell s.disp c r) ∧
      (∀ c r, ¬ s.SpriteCovers (s.v x) (s.v y) n.toNat c r →
        Grid.cell t.disp c r = Grid.cell s.disp c r) ∧
      (t.v 0xF = 0 ∨ t.v 0xF = 1) ∧
      (t.v 0xF = 1 ↔
        ∃ c r, s.SpriteCovers (s.v x) (s.v y) n.toNat c r ∧ Grid.cell s.disp c r = true)

/-- R224: a second DRW with the same I, bytes and coordinates restores the display, and its VF is 1
exactly when the first lit a cell that was unlit. -/
def Obligations.DrawingTwiceRestoresTheDisplay : Prop :=
  ∀ (x y x' y' n : Nibble) (s t u : State), n.toNat = 0 ∨ s.i.toNat + n.toNat ≤ 0x1000 →
    exec (.drwVxVyN x y n) s = .next t →
    u.i = s.i → (∀ j < n.toNat, u.mem.read (s.i.toNat + j) = s.mem.read (s.i.toNat + j)) →
    u.v x' = s.v x → u.v y' = s.v y → u.disp = t.disp →
    ∃ w, exec (.drwVxVyN x' y' n) u = .next w ∧ w.disp = s.disp ∧
      (w.v 0xF = 1 ↔ ∃ c r, Grid.cell s.disp c r = false ∧ Grid.cell t.disp c r = true)

/-! ### Keys and timers -/

/-- R240, R241: the key skips, and their fault on a register above 0xF. -/
def Obligations.KeySkipsReadTheNamedKey : Prop :=
  ∀ (x : Nibble) (s : State),
    (∀ h : (s.v x).toNat < 16,
      exec (.skpVx x) s = .next { s with
        pc := s.pc + if s.keys[(s.v x).toNat] = true then 4 else 2 } ∧
      exec (.sknpVx x) s = .next { s with
        pc := s.pc + if s.keys[(s.v x).toNat] = false then 4 else 2 }) ∧
    (16 ≤ (s.v x).toNat →
      exec (.skpVx x) s = .next { s with fault := some ⟨.keyIndexOutOfRange, s.pc,
        some (BitVec.ofNat 16 (0xE09E + 256 * x.toNat)), (s.v x).toNat⟩ } ∧
      exec (.sknpVx x) s = .next { s with fault := some ⟨.keyIndexOutOfRange, s.pc,
        some (BitVec.ofNat 16 (0xE0A1 + 256 * x.toNat)), (s.v x).toNat⟩ })

/-- R242, R244, R245: the timer moves. -/
def Obligations.TimerMovesCopyOneByte : Prop :=
  ∀ x : Nibble,
    decodeWord (packXkk 0xF x 0x07) = .ok (.ldVxDt x) ∧
    decodeWord (packXkk 0xF x 0x15) = .ok (.ldDtVx x) ∧
    decodeWord (packXkk 0xF x 0x18) = .ok (.ldStVx x) ∧
    ∀ s : State,
      (∃ t, exec (.ldVxDt x) s = .next t ∧ t = { s with regs := t.regs, pc := s.pc + 2 } ∧
        ∀ r, t.v r = if r = x then s.dt else s.v r) ∧
      exec (.ldDtVx x) s = .next { s with dt := s.v x, pc := s.pc + 2 } ∧
      exec (.ldStVx x) s = .next { s with st := s.v x, pc := s.pc + 2 }

/-- R243, R311: Fx0A sets the flag, latches X and completes without writing V[X] (decisions D15 and D28
of the spec); whether a step is then enabled is the policy's; the host's supply_key then writes the key to
V[X] and clears the flag. -/
def Obligations.WaitForKeyThenSupply : Prop :=
  ∀ (x k : Nibble) (s : State),
    ∃ t, exec (.ldVxK x) s = .next t ∧
      t = { s with awaitingKey := true, waitReg := x, pc := s.pc + 2 } ∧
      (s.fault = none → ∀ policy, (∃ w, stepWith policy t = .next w) ↔ policy = true) ∧
      ∃ u, hostSupplyKey k.toNat t = .next u ∧
        u = { t with regs := u.regs, pendingKey := k, awaitingKey := false } ∧
        (u.v x).toNat = k.toNat ∧ ∀ r, r ≠ x → u.v r = s.v r

/-! ### Index and memory -/

/-- R260: LD I,nnn. -/
def Obligations.LoadIndexSetsTheAddress : Prop :=
  ∀ nnn : Addr12,
    decodeWord (packNnn 0xA nnn) = .ok (.ldINnn nnn) ∧
    ∀ s : State, ∃ t, exec (.ldINnn nnn) s = .next t ∧ t = { s with i := t.i, pc := s.pc + 2 } ∧
      t.i.toNat = nnn.toNat

/-- R262: LD F,Vx; the product is exact and V[X] is not masked (decision D11 of the spec). -/
def Obligations.FontAddressIsFiveTimesTheRegister : Prop :=
  ∀ (x : Nibble) (s : State), ∃ t, exec (.ldFVx x) s = .next t ∧
    t = { s with i := t.i, pc := s.pc + 2 } ∧ t.i.toNat = 5 * (s.v x).toNat

/-- R261: ADD I,Vx wraps at 16 bits, and VF tests the new I. -/
def Obligations.AddToIndexFlagsTheNewIndex : Prop :=
  ∀ (x : Nibble) (s : State), ∃ t, exec (.addIVx x) s = .next t ∧
    t = { s with regs := t.regs, i := t.i, pc := s.pc + 2 } ∧
    t.i.toNat = (s.i.toNat + (s.v x).toNat) % 65536 ∧
    (t.v 0xF).toNat = (if t.i.toNat > 0xFFF then 1 else 0) ∧
    ∀ r, r ≠ 0xF → t.v r = s.v r

/-- R263: LD B,Vx stores the three decimal digits, and every other byte reads as before; beyond the memory
it faults and stores nothing. -/
def Obligations.BcdStoresThreeDigits : Prop :=
  ∀ x : Nibble,
    decodeWord (packXkk 0xF x 0x33) = .ok (.ldBVx x) ∧
    ∀ s : State,
      (s.i.toNat + 2 < 0x1000 → ∃ t, exec (.ldBVx x) s = .next t ∧
        t = { s with mem := t.mem, pc := s.pc + 2 } ∧
        (t.mem.read s.i.toNat).toNat = (s.v x).toNat / 100 ∧
        (t.mem.read (s.i.toNat + 1)).toNat = (s.v x).toNat / 10 % 10 ∧
        (t.mem.read (s.i.toNat + 2)).toNat = (s.v x).toNat % 10 ∧
        ∀ a, a < s.i.toNat ∨ s.i.toNat + 2 < a → t.mem.read a = s.mem.read a) ∧
      (0x1000 ≤ s.i.toNat + 2 → exec (.ldBVx x) s = .next { s with
        fault := some ⟨.memoryOutOfBounds, s.pc, some (packXkk 0xF x 0x33), max s.i.toNat 0x1000⟩ })

/-- R264: LD [I],Vx stores V0 to VX and moves I past them, and every other byte reads as before; beyond
the memory it faults and stores nothing. -/
def Obligations.DumpStoresRegistersAndMovesIndex : Prop :=
  ∀ x : Nibble,
    decodeWord (packXkk 0xF x 0x55) = .ok (.ldMemVx x) ∧
    ∀ s : State,
      (s.i.toNat + x.toNat < 0x1000 → ∃ t, exec (.ldMemVx x) s = .next t ∧
        t = { s with mem := t.mem, i := t.i, pc := s.pc + 2 } ∧
        t.i.toNat = s.i.toNat + x.toNat + 1 ∧
        (∀ r : Nibble, r.toNat ≤ x.toNat → t.mem.read (s.i.toNat + r.toNat) = s.v r) ∧
        ∀ a, a < s.i.toNat ∨ s.i.toNat + x.toNat < a → t.mem.read a = s.mem.read a) ∧
      (0x1000 ≤ s.i.toNat + x.toNat → exec (.ldMemVx x) s = .next { s with
        fault := some ⟨.memoryOutOfBounds, s.pc, some (packXkk 0xF x 0x55), max s.i.toNat 0x1000⟩ })

/-- R265: LD Vx,[I] loads V0 to VX and leaves I and the other registers; beyond the memory it faults and
loads nothing. -/
def Obligations.LoadFillsRegistersAndKeepsIndex : Prop :=
  ∀ x : Nibble,
    decodeWord (packXkk 0xF x 0x65) = .ok (.ldVxMem x) ∧
    ∀ s : State,
      (s.i.toNat + x.toNat < 0x1000 → ∃ t, exec (.ldVxMem x) s = .next t ∧
        t = { s with regs := t.regs, pc := s.pc + 2 } ∧
        ∀ r : Nibble, t.v r =
          if r.toNat ≤ x.toNat then s.mem.read (s.i.toNat + r.toNat) else s.v r) ∧
      (0x1000 ≤ s.i.toNat + x.toNat → exec (.ldVxMem x) s = .next { s with
        fault := some ⟨.memoryOutOfBounds, s.pc, some (packXkk 0xF x 0x65), max s.i.toNat 0x1000⟩ })

/-- R64: an access of Dxyn, Fx33, Fx55 or Fx65 that reaches beyond the memory faults before any write,
with the lowest out-of-range address. -/
def Obligations.AccessBeyondMemoryFaultsBeforeAnyWrite : Prop :=
  ∀ (i : Instr) (count : Nat) (s : State), TouchesFromI i count → 0 < count →
    0x1000 < s.i.toNat + count →
    ∃ a, exec i s = .next { s with fault := some ⟨.memoryOutOfBounds, s.pc, some (encode i), a⟩ } ∧
      s.i.toNat ≤ a ∧ a < s.i.toNat + count ∧ 0x1000 ≤ a ∧
      ∀ b, s.i.toNat ≤ b → b < a → b < 0x1000

/-- R266: a dump, then a load from the same I with the bytes kept, gives V0 to VX back. -/
def Obligations.DumpThenLoadGivesRegistersBack : Prop :=
  ∀ (x : Nibble) (s t u : State), s.i.toNat + x.toNat < 0x1000 → exec (.ldMemVx x) s = .next t →
    u.i = s.i → (∀ k ≤ x.toNat, u.mem.read (s.i.toNat + k) = t.mem.read (s.i.toNat + k)) →
    t.i.toNat = s.i.toNat + x.toNat + 1 ∧
    ∃ w, exec (.ldVxMem x) u = .next w ∧ w.i = s.i ∧
      ∀ r : Nibble, r.toNat ≤ x.toNat → w.v r = s.v r

/-- R67, R73: bytes stored by Fx55 or Fx33 and then fetched as an instruction: the byte at the lower
address is the high byte of the word, and the very next fetch sees them. Two digits stored by Fx33 are
never an instruction, so the step that fetches them records that word as unrecognized. -/
def Obligations.StoredBytesAreFetchedBigEndian : Prop :=
  ∀ (x : Nibble) (s t : State) (policy : Bool), s.fault = none → s.awaitingKey = false →
    (∀ i, 1 ≤ x.toNat → s.i.toNat + x.toNat < 0x1000 → exec (.ldMemVx x) s = .next t →
      decodeWord (BitVec.ofNat 16 ((s.v 0).toNat * 256 + (s.v 1).toNat)) = .ok i →
      stepWith policy { t with pc := s.i } = exec i { t with pc := s.i }) ∧
    (s.i.toNat + 2 < 0x1000 → exec (.ldBVx x) s = .next t →
      stepWith policy { t with pc := s.i + 1 } = .next { t with
        pc := s.i + 1
        fault := some ⟨.unrecognizedInstruction, s.i + 1,
          some (BitVec.ofNat 16 ((s.v x).toNat / 10 % 10 * 256 + (s.v x).toNat % 10)),
          (s.v x).toNat / 10 % 10 * 256 + (s.v x).toNat % 10⟩ })

/-! ### Reset and the host's operations -/

/-- R342, R344: loading a program writes FONT, IMAGE, pc, V, I, sp, fault and awaiting_key, and nothing
else; a FONT that is not 80 bytes or an IMAGE over 3584 is refused. -/
def Obligations.LoadingAProgramWritesTheListedFields : Prop :=
  ∀ (image font : List Byte) (s : State),
    (font.length ≠ 80 ∨ 3584 < image.length → ∃ r, hostLoad image font s = .refused r) ∧
    (font.length = 80 → image.length ≤ 3584 → ∃ t, hostLoad image font s = .next t ∧
      t = { s with mem := t.mem, regs := t.regs, pc := 0x200, i := 0, sp := 0, fault := none,
                   awaitingKey := false } ∧
      (∀ x, t.v x = 0) ∧
      ∀ a, t.mem.read a =
        if a < 80 then font.getD a 0
        else if 0x200 ≤ a ∧ a < 0x200 + image.length then image.getD (a - 0x200) 0
        else s.mem.read a)

/-- R42, R341: power-on creation and then the load of IMAGE and FONT give the reset state, field by field;
with an empty IMAGE it is `State.reset`. The field `draws` is the model's own (log entry 1), and no clause
is about it. -/
def Obligations.ResetStateIsTheTabulatedOne : Prop :=
  (∀ a, State.powerOn.mem.read a = 0) ∧
  State.powerOn = { State.reset with mem := State.powerOn.mem } ∧
  hostLoad [] fontBytes State.powerOn = .next State.reset ∧
  ∀ image : List Byte, image.length ≤ 3584 →
    ∃ t, hostLoad image fontBytes State.powerOn = .next t ∧
      (∀ a, t.mem.read a =
        if a < 80 then Config.font.toList.getD a 0
        else if 0x200 ≤ a ∧ a < 0x200 + image.length then image.getD (a - 0x200) 0
        else 0) ∧
      (∀ x, t.v x = 0) ∧ t.i = 0 ∧ t.pc = 0x200 ∧ t.sp.val = 0 ∧
      (∀ j : Fin 16, t.stack[j.val] = 0) ∧ t.dt = 0 ∧ t.st = 0 ∧
      (∀ c r, Grid.cell t.disp c r = false) ∧ (∀ k : Fin 16, t.keys[k.val] = false) ∧
      t.pendingKey = 0 ∧ t.awaitingKey = false ∧ t.waitReg = 0 ∧ t.drawPending = false ∧
      t.fault = none

/-- R311: supply_key. -/
def Obligations.SupplyKeyEndsTheWait : Prop :=
  ∀ (k : Nat) (s : State),
    (16 ≤ k → hostSupplyKey k s = .refused (.keyValueOutOfRange k)) ∧
    (k < 16 → ∃ t, hostSupplyKey k s = .next t ∧
      t = { s with regs := t.regs, pendingKey := t.pendingKey, awaitingKey := false } ∧
      t.pendingKey.toNat = k ∧
      ∀ r, (t.v r).toNat = if s.awaitingKey = true ∧ r = s.waitReg then k else (s.v r).toNat)

/-- R312, R313, R314: set_key, tick_timer (a timer at 0 stays 0) and ack_render. -/
def Obligations.HostOperationsWriteTheirOwnField : Prop :=
  ∀ (k : Nat) (down : Bool) (s : State),
    (16 ≤ k → hostSetKey k down s = .refused (.keyIndexNotAKey k)) ∧
    (k < 16 → ∃ t, hostSetKey k down s = .next t ∧ t = { s with keys := t.keys } ∧
      ∀ j : Fin 16, t.keys[j.val] = if j.val = k then down else s.keys[j.val]) ∧
    (∃ t, hostTickTimer .delay s = .next t ∧ t = { s with dt := t.dt } ∧
      t.dt.toNat = s.dt.toNat - 1) ∧
    (∃ t, hostTickTimer .sound s = .next t ∧ t = { s with st := t.st } ∧
      t.st.toNat = s.st.toNat - 1) ∧
    hostAckRender s = .next { s with drawPending := false }

/-- R303: on a halted core no operation but the load of a program clears the fault, whatever
operations are made. -/
def Obligations.OnlyLoadingClearsAFault : Prop :=
  ∀ (policy : Bool) (ops : List HostOp) (s t : State) (r : FaultRecord),
    (∀ image font, HostOp.load image font ∉ ops) → s.fault = some r →
    performAll policy ops s = .next t → t.fault = some r ∧ t.pc = s.pc ∧ t.mem = s.mem

/-- R324 (b): at a self-jump every enabled step leaves the state as it is, and so do any number of
them. -/
def Obligations.IdleStateNeverChanges : Prop :=
  ∀ (policy : Bool) (s : State) (n : Nat), s.Idle → s.Enabled policy →
    performAll policy (List.replicate n .step) s = .next s

/-- R324 (c): at a blocked state of an unfaulted run no step is enabled, and none comes to be: whatever
else the host does, but load a program, the wait, pc, the registers, I, the stack, memory and the display
stay as they are. One supply_key ends the wait, and a step is then enabled. That the host's future is the
list `rest`, and that a load begins another run, is the model's choice (log entry 18). -/
def Obligations.BlockedRunStaysBlocked : Prop :=
  ∀ (policy : Bool) (rest : List HostOp) (s : State), s.Blocked policy rest → s.fault = none →
    stepWith policy s = .fault .blockedAwaitingKey ∧
    (∀ t, (∀ image font, HostOp.load image font ∉ rest) → performAll policy rest s = .next t →
      t = { s with dt := t.dt, st := t.st, keys := t.keys, drawPending := t.drawPending } ∧
      stepWith policy t = .fault .blockedAwaitingKey) ∧
    ∀ k : Nibble, ∃ u, hostSupplyKey k.toNat s = .next u ∧ u.Enabled policy
end

