-- ==== Sys2Proof/Laws/Encoding.lean ====
section
/-!
SUPPORT. The encoder's three layouts as numbers, and the fields of a laid-out word (30_encoding.md
R91, R92).
-/

namespace Sys2Proof

theorem toNat_packNnn (o : Nibble) (nnn : Addr12) :
    (packNnn o nnn).toNat = o.toNat * 4096 + nnn.toNat := by
  have h : (packNnn o nnn).toNat = (o ++ nnn : BitVec (4 + 12)).toNat := rfl
  rw [h, BitVec.toNat_append, ← Nat.shiftLeft_add_eq_or_of_lt nnn.isLt, Nat.shiftLeft_eq]

theorem toNat_packXkk (o x : Nibble) (kk : Byte) :
    (packXkk o x kk).toNat = o.toNat * 4096 + x.toNat * 256 + kk.toNat := by
  have h : (packXkk o x kk).toNat = (o ++ x ++ kk : BitVec (4 + 4 + 8)).toNat := rfl
  rw [h, BitVec.toNat_append, BitVec.toNat_append, ← Nat.shiftLeft_add_eq_or_of_lt kk.isLt,
    ← Nat.shiftLeft_add_eq_or_of_lt x.isLt, Nat.shiftLeft_eq, Nat.shiftLeft_eq]
  omega

theorem toNat_packXyn (o x y n : Nibble) :
    (packXyn o x y n).toNat = o.toNat * 4096 + x.toNat * 256 + y.toNat * 16 + n.toNat := by
  have h : (packXyn o x y n).toNat = (o ++ x ++ y ++ n : BitVec (4 + 4 + 4 + 4)).toNat := rfl
  rw [h, BitVec.toNat_append, BitVec.toNat_append, BitVec.toNat_append,
    ← Nat.shiftLeft_add_eq_or_of_lt n.isLt, ← Nat.shiftLeft_add_eq_or_of_lt y.isLt,
    ← Nat.shiftLeft_add_eq_or_of_lt x.isLt, Nat.shiftLeft_eq, Nat.shiftLeft_eq, Nat.shiftLeft_eq]
  omega

theorem toNat_joinBytes (hi lo : Byte) : (joinBytes hi lo).toNat = hi.toNat * 256 + lo.toNat := by
  have h : (joinBytes hi lo).toNat = (hi ++ lo : BitVec (8 + 8)).toNat := rfl
  rw [h, BitVec.toNat_append, ← Nat.shiftLeft_add_eq_or_of_lt lo.isLt, Nat.shiftLeft_eq]

theorem toNat_fieldHigh (op : Word) : (fieldHigh op).toNat = op.toNat / 4096 := by
  have := op.isLt
  simp only [fieldHigh, BitVec.extractLsb'_toNat, Nat.shiftRight_eq_div_pow]
  omega
theorem toNat_fieldX (op : Word) : (fieldX op).toNat = op.toNat / 256 % 16 := by
  simp [fieldX, BitVec.extractLsb'_toNat, Nat.shiftRight_eq_div_pow]
theorem toNat_fieldY (op : Word) : (fieldY op).toNat = op.toNat / 16 % 16 := by
  simp [fieldY, BitVec.extractLsb'_toNat, Nat.shiftRight_eq_div_pow]
theorem toNat_fieldN (op : Word) : (fieldN op).toNat = op.toNat % 16 := by
  simp [fieldN]
theorem toNat_fieldKK (op : Word) : (fieldKK op).toNat = op.toNat % 256 := by
  simp [fieldKK]
theorem toNat_fieldNNN (op : Word) : (fieldNNN op).toNat = op.toNat % 4096 := by
  simp [fieldNNN]
theorem toNat_highByte (op : Word) : (highByte op).toNat = op.toNat / 256 := by
  have := op.isLt
  simp only [highByte, BitVec.extractLsb'_toNat, Nat.shiftRight_eq_div_pow]
  omega
theorem toNat_lowByte (op : Word) : (lowByte op).toNat = op.toNat % 256 := by
  simp [lowByte]

/-! ### Fields of a laid-out word -/

@[simp] theorem fieldHigh_packNnn (o : Nibble) (nnn : Addr12) : fieldHigh (packNnn o nnn) = o := by
  apply BitVec.eq_of_toNat_eq; rw [toNat_fieldHigh, toNat_packNnn]; omega
@[simp] theorem fieldNNN_packNnn (o : Nibble) (nnn : Addr12) : fieldNNN (packNnn o nnn) = nnn := by
  apply BitVec.eq_of_toNat_eq; rw [toNat_fieldNNN, toNat_packNnn]; omega
@[simp] theorem fieldHigh_packXkk (o x : Nibble) (kk : Byte) : fieldHigh (packXkk o x kk) = o := by
  apply BitVec.eq_of_toNat_eq; rw [toNat_fieldHigh, toNat_packXkk]; omega
@[simp] theorem fieldX_packXkk (o x : Nibble) (kk : Byte) : fieldX (packXkk o x kk) = x := by
  apply BitVec.eq_of_toNat_eq; rw [toNat_fieldX, toNat_packXkk]; omega
@[simp] theorem fieldKK_packXkk (o x : Nibble) (kk : Byte) : fieldKK (packXkk o x kk) = kk := by
  apply BitVec.eq_of_toNat_eq; rw [toNat_fieldKK, toNat_packXkk]; omega
@[simp] theorem fieldHigh_packXyn (o x y n : Nibble) : fieldHigh (packXyn o x y n) = o := by
  apply BitVec.eq_of_toNat_eq; rw [toNat_fieldHigh, toNat_packXyn]; omega
@[simp] theorem fieldX_packXyn (o x y n : Nibble) : fieldX (packXyn o x y n) = x := by
  apply BitVec.eq_of_toNat_eq; rw [toNat_fieldX, toNat_packXyn]; omega
@[simp] theorem fieldY_packXyn (o x y n : Nibble) : fieldY (packXyn o x y n) = y := by
  apply BitVec.eq_of_toNat_eq; rw [toNat_fieldY, toNat_packXyn]; omega
@[simp] theorem fieldN_packXyn (o x y n : Nibble) : fieldN (packXyn o x y n) = n := by
  apply BitVec.eq_of_toNat_eq; rw [toNat_fieldN, toNat_packXyn]; omega

@[simp] theorem joinBytes_high_low (op : Word) : joinBytes (highByte op) (lowByte op) = op := by
  apply BitVec.eq_of_toNat_eq; rw [toNat_joinBytes, toNat_highByte, toNat_lowByte]; omega
@[simp] theorem highByte_joinBytes (hi lo : Byte) : highByte (joinBytes hi lo) = hi := by
  apply BitVec.eq_of_toNat_eq; rw [toNat_highByte, toNat_joinBytes]; omega
@[simp] theorem lowByte_joinBytes (hi lo : Byte) : lowByte (joinBytes hi lo) = lo := by
  apply BitVec.eq_of_toNat_eq; rw [toNat_lowByte, toNat_joinBytes]; omega

/-! ### Masking a laid-out word, field by field -/

theorem packNnn_and (o o' : Nibble) (nnn nnn' : Addr12) :
    packNnn o nnn &&& packNnn o' nnn' = packNnn (o &&& o') (nnn &&& nnn') :=
  BitVec.and_append.symm ▸ rfl

theorem packXkk_and (o o' x x' : Nibble) (kk kk' : Byte) :
    packXkk o x kk &&& packXkk o' x' kk' = packXkk (o &&& o') (x &&& x') (kk &&& kk') := by
  have h : ((o ++ x : BitVec (4 + 4)) &&& (o' ++ x')) = (o &&& o') ++ (x &&& x') := BitVec.and_append.symm ▸ rfl
  have h2 : ((o ++ x ++ kk : BitVec (4 + 4 + 8)) &&& (o' ++ x' ++ kk')) =
      ((o ++ x : BitVec (4 + 4)) &&& (o' ++ x')) ++ (kk &&& kk') := BitVec.and_append.symm ▸ rfl
  rw [h] at h2
  exact h2

theorem packXyn_and (o o' x x' y y' n n' : Nibble) :
    packXyn o x y n &&& packXyn o' x' y' n' =
      packXyn (o &&& o') (x &&& x') (y &&& y') (n &&& n') := by
  have h : ((o ++ x : BitVec (4 + 4)) &&& (o' ++ x')) = (o &&& o') ++ (x &&& x') := BitVec.and_append.symm ▸ rfl
  have h2 : ((o ++ x ++ y : BitVec (4 + 4 + 4)) &&& (o' ++ x' ++ y')) =
      ((o ++ x : BitVec (4 + 4)) &&& (o' ++ x')) ++ (y &&& y') := BitVec.and_append.symm ▸ rfl
  have h3 : ((o ++ x ++ y ++ n : BitVec (4 + 4 + 4 + 4)) &&& (o' ++ x' ++ y' ++ n')) =
      ((o ++ x ++ y : BitVec (4 + 4 + 4)) &&& (o' ++ x' ++ y')) ++ (n &&& n') :=
    BitVec.and_append.symm ▸ rfl
  rw [h2, h] at h3
  exact h3

theorem nibble_and_ones (a : Nibble) : a &&& 0xF = a := BitVec.and_allOnes
theorem nibble_and_zero (a : Nibble) : a &&& 0 = 0 := BitVec.and_zero
theorem byte_and_zero (a : Byte) : a &&& 0 = 0 := BitVec.and_zero
theorem addr12_and_zero (a : Addr12) : a &&& 0 = 0 := BitVec.and_zero
theorem byte_and_ones (a : Byte) : a &&& 0xFF = a := BitVec.and_allOnes

/-- Format nnn: the mask F000 leaves the high nibble. -/
theorem packNnn_fits (o : Nibble) (nnn : Addr12) : packNnn o nnn &&& 0xF000 = packNnn o 0 := by
  rw [show (0xF000 : Word) = packNnn 0xF 0 by decide, packNnn_and, nibble_and_ones, addr12_and_zero]

/-- Format xkk: the mask F000 leaves the high nibble. -/
theorem packXkk_fits (o x : Nibble) (kk : Byte) : packXkk o x kk &&& 0xF000 = packXkk o 0 0 := by
  rw [show (0xF000 : Word) = packXkk 0xF 0 0 by decide, packXkk_and, nibble_and_ones, nibble_and_zero,
    byte_and_zero]

/-- Format x: the mask F0FF leaves the high nibble and the low byte. -/
theorem packX_fits (o x : Nibble) (kk : Byte) : packXkk o x kk &&& 0xF0FF = packXkk o 0 kk := by
  rw [show (0xF0FF : Word) = packXkk 0xF 0 0xFF by decide, packXkk_and, nibble_and_ones,
    nibble_and_zero, byte_and_ones]

/-- Format xy: the mask F00F leaves the high and the low nibble. -/
theorem packXy_fits (o x y n : Nibble) : packXyn o x y n &&& 0xF00F = packXyn o 0 0 n := by
  rw [show (0xF00F : Word) = packXyn 0xF 0 0 0xF by decide, packXyn_and, nibble_and_ones,
    nibble_and_zero, nibble_and_zero, nibble_and_ones]

/-- Format xyn: the mask F000 leaves the high nibble. -/
theorem packXyn_fits (o x y n : Nibble) : packXyn o x y n &&& 0xF000 = packXyn o 0 0 0 := by
  rw [show (0xF000 : Word) = packXyn 0xF 0 0 0 by decide, packXyn_and, nibble_and_ones,
    nibble_and_zero, nibble_and_zero, nibble_and_zero]

end Sys2Proof
end

