-- ==== Sys2Proof/Laws/Memory.lean ====
section
/-!
SUPPORT. The laws of memory (20_memory.md R63, R71): a byte reads as the one last written to its
address, every other byte is left alone, the canonical form is kept, and two memories in canonical
form that read alike are equal.
-/

namespace Sys2Proof.Machine

theorem Memory.read_insert (m : Memory) (a a' : Nat) (b : Byte) (h : ∀ c ∈ m, c.1 ≠ a) :
    (Memory.insert a b m).read a' = if a' = a then b else m.read a' := by
  induction m with
  | nil => simp [Memory.insert, Memory.read]
  | cons c rest ih =>
    obtain ⟨k, v⟩ := c
    have hk : k ≠ a := h (k, v) (by simp)
    have hr : ∀ c ∈ rest, c.1 ≠ a := fun c hc => h c (by simp [hc])
    unfold Memory.insert
    split
    · simp [Memory.read]
    · simp only [Memory.read, ih hr]
      by_cases h1 : a' = a
      · subst h1; simp [Ne.symm hk]
      · simp [h1]

theorem Memory.read_erase (m : Memory) (a a' : Nat) :
    (Memory.erase a m).read a' = if a' = a then Memory.background a else m.read a' := by
  induction m with
  | nil => unfold Memory.erase; simp only [List.filter_nil, Memory.read]; split <;> simp_all
  | cons c rest ih =>
    obtain ⟨k, v⟩ := c
    unfold Memory.erase at ih ⊢
    by_cases hk : k = a
    · subst hk
      simp only [bne_self_eq_false, Bool.false_eq_true, not_false_eq_true, List.filter_cons_of_neg, ih,
        Memory.read]
      split <;> simp_all
    · simp only [bne_iff_ne, ne_eq, hk, not_false_eq_true, List.filter_cons_of_pos, Memory.read, ih]
      by_cases h1 : a' = a
      · subst h1; simp [Ne.symm hk]
      · simp [h1]

/-- A byte reads as the one last written to its address; every other byte is left alone. -/
theorem Memory.read_write (m : Memory) (a a' : Nat) (b : Byte) :
    (m.write a b).read a' = if a' = a ∧ a < memSize then b else m.read a' := by
  have hfree : ∀ c ∈ Memory.erase a m, c.1 ≠ a := by
    intro c hc; simpa [Memory.erase] using (List.mem_filter.mp hc).2
  unfold Memory.write
  by_cases ha : a < memSize
  · simp only [ha, if_true, and_true]
    split
    · next hb => rw [Memory.read_erase, hb]
    · rw [Memory.read_insert _ _ _ _ hfree, Memory.read_erase]; split <;> simp_all
  · simp [ha]

@[simp] theorem Memory.read_write_self (m : Memory) {a : Nat} (b : Byte) (h : a < memSize) :
    (m.write a b).read a = b := by
  simp [Memory.read_write, h]

theorem Memory.read_write_ne (m : Memory) {a a' : Nat} (b : Byte) (h : a' ≠ a) :
    (m.write a b).read a' = m.read a' := by
  simp [Memory.read_write, h]

/-- Storing bytes: the k-th byte stands at `base + k`, and every byte outside is left alone. -/
theorem Memory.read_storeBytes (m : Memory) (base : Nat) (bs : List Byte) (a : Nat)
    (h : base + bs.length ≤ memSize) :
    (m.storeBytes base bs).read a =
      if h' : base ≤ a ∧ a < base + bs.length then bs[a - base]'(by omega) else m.read a := by
  induction bs generalizing m base with
  | nil => simp only [Memory.storeBytes, List.length_nil]; rw [dif_neg (by omega)]
  | cons b rest ih =>
    simp only [List.length_cons] at h ⊢
    unfold Memory.storeBytes
    rw [ih _ _ (by omega)]
    by_cases h1 : base + 1 ≤ a ∧ a < base + 1 + rest.length
    · rw [dif_pos h1, dif_pos (by omega)]
      obtain ⟨d, rfl⟩ : ∃ d, a = base + 1 + d := ⟨a - (base + 1), by omega⟩
      have e1 : base + 1 + d - (base + 1) = d := by omega
      have e2 : base + 1 + d - base = d + 1 := by omega
      simp [e1, e2]
    · rw [dif_neg h1]
      by_cases h2 : a = base
      · subst h2
        rw [Memory.read_write_self _ _ (by omega), dif_pos (by omega)]
        simp
      · rw [Memory.read_write_ne _ _ h2, dif_neg (by omega)]

/-- The k-th stored byte. -/
theorem Memory.read_storeBytes_at (m : Memory) (base : Nat) (bs : List Byte) (k : Nat)
    (hk : k < bs.length) (h : base + bs.length ≤ memSize) :
    (m.storeBytes base bs).read (base + k) = bs[k] := by
  rw [Memory.read_storeBytes m base bs (base + k) h, dif_pos (by omega)]
  simp

/-- Every byte outside the stored ones is left alone. -/
theorem Memory.read_storeBytes_outside (m : Memory) (base : Nat) (bs : List Byte) (a : Nat)
    (ha : a < base ∨ base + bs.length ≤ a) (h : base + bs.length ≤ memSize) :
    (m.storeBytes base bs).read a = m.read a := by
  rw [Memory.read_storeBytes m base bs a h, dif_neg (by omega)]

@[simp] theorem Memory.length_loadBytes (m : Memory) (base count : Nat) :
    (m.loadBytes base count).length = count := by
  induction count generalizing base with
  | zero => rfl
  | succ n ih => simp [Memory.loadBytes, ih]

/-- Loading bytes: the k-th is the byte at `base + k`. -/
theorem Memory.getElem_loadBytes (m : Memory) (base count k : Nat)
    (h : k < (m.loadBytes base count).length) :
    (m.loadBytes base count)[k] = m.read (base + k) := by
  induction count generalizing base k with
  | zero => simp [Memory.loadBytes] at h
  | succ n ih =>
    cases k with
    | zero => simp [Memory.loadBytes]
    | succ k =>
      simp only [Memory.loadBytes, List.getElem_cons_succ]
      rw [ih]
      congr 1; omega

/-! ### The canonical form -/

theorem Memory.mem_insert {m : Memory} {a : Nat} {b : Byte} {c : Host.Cell} :
    c ∈ Memory.insert a b m ↔ c = (a, b) ∨ c ∈ m := by
  induction m with
  | nil => simp [Memory.insert]
  | cons d rest ih =>
    unfold Memory.insert
    split
    · simp
    · simp [ih]; tauto

theorem Memory.wf_erase {m : Memory} (a : Nat) (h : m.wf) : (Memory.erase a m).wf :=
  ⟨h.1.filter _, fun c hc => h.2 c (List.mem_filter.mp hc).1⟩

theorem Memory.wf_insert {m : Memory} {a : Nat} {b : Byte} (h : m.wf) (hfree : ∀ c ∈ m, c.1 ≠ a)
    (ha : a < memSize) (hb : b ≠ Memory.background a) : (Memory.insert a b m).wf := by
  refine ⟨?_, fun c hc => ?_⟩
  · have hp := h.1
    clear h
    induction m with
    | nil => simp [Memory.insert]
    | cons d rest ih =>
      obtain ⟨k, v⟩ := d
      have hk : k ≠ a := hfree (k, v) (by simp)
      have hr : ∀ c ∈ rest, c.1 ≠ a := fun c hc => hfree c (by simp [hc])
      rw [List.pairwise_cons] at hp
      unfold Memory.insert
      split
      · next hlt =>
        refine List.pairwise_cons.mpr ⟨fun c hc => ?_, List.pairwise_cons.mpr hp⟩
        rcases List.mem_cons.mp hc with rfl | hc
        · exact hlt
        · exact Nat.lt_trans hlt (hp.1 c hc)
      · refine List.pairwise_cons.mpr ⟨fun c hc => ?_, ih hr hp.2⟩
        rcases Memory.mem_insert.mp hc with rfl | hc
        · show k < a
          omega
        · exact hp.1 c hc
  · rcases Memory.mem_insert.mp hc with rfl | hc
    · exact ⟨ha, hb⟩
    · exact h.2 c hc

theorem Memory.wf_write {m : Memory} (a : Nat) (b : Byte) (h : m.wf) : (m.write a b).wf := by
  unfold Memory.write
  split
  · next ha =>
    split
    · exact Memory.wf_erase a h
    · next hb =>
      exact Memory.wf_insert (Memory.wf_erase a h)
        (fun c hc => by simpa [Memory.erase] using (List.mem_filter.mp hc).2) ha hb
  · exact h

theorem Memory.wf_storeBytes {m : Memory} (base : Nat) (bs : List Byte) (h : m.wf) :
    (m.storeBytes base bs).wf := by
  induction bs generalizing m base with
  | nil => exact h
  | cons b rest ih => exact ih (base + 1) (Memory.wf_write base b h)

theorem Memory.wf_nil : Memory.wf [] :=
  ⟨List.Pairwise.nil, fun _ hc => absurd hc List.not_mem_nil⟩

theorem Memory.wf_reset : State.reset.mem.wf := Memory.wf_nil

theorem Memory.read_eq_background_of_lt {m : Memory} {a : Nat} (h : ∀ c ∈ m, a < c.1) :
    m.read a = Memory.background a := by
  induction m with
  | nil => rfl
  | cons c rest ih =>
    obtain ⟨k, v⟩ := c
    have hk : a < k := h (k, v) (by simp)
    simp only [Memory.read, show a ≠ k by omega, if_false]
    exact ih fun c hc => h c (by simp [hc])

/-- The canonical form is canonical: memories that read alike are equal data. -/
theorem Memory.ext_of_wf {m m' : Memory} (h : m.wf) (h' : m'.wf) (hr : ∀ a, m.read a = m'.read a) :
    m = m' := by
  induction m generalizing m' with
  | nil =>
    cases m' with
    | nil => rfl
    | cons c rest =>
      obtain ⟨k, v⟩ := c
      have := hr k
      simp only [Memory.read, if_true] at this
      exact absurd this.symm (h'.2 (k, v) (by simp)).2
  | cons c rest ih =>
    obtain ⟨k, v⟩ := c
    have hp := List.pairwise_cons.mp h.1
    cases m' with
    | nil =>
      have := hr k
      simp only [Memory.read, if_true] at this
      exact absurd this (h.2 (k, v) (by simp)).2
    | cons c' rest' =>
      obtain ⟨k', v'⟩ := c'
      have hp' := List.pairwise_cons.mp h'.1
      have hne := (h.2 (k, v) (by simp)).2
      have hne' := (h'.2 (k', v') (by simp)).2
      have hlt : ∀ {l : Memory} {x y : Nat}, x < y → (∀ c ∈ l, y < c.1) → ∀ c ∈ l, x < c.1 :=
        fun hxy hl c hc => Nat.lt_trans hxy (hl c hc)
      have hk : k = k' := by
        rcases Nat.lt_trichotomy k k' with hlt' | heq | hgt
        · have := hr k
          simp only [Memory.read, if_true, show k ≠ k' by omega, if_false] at this
          rw [Memory.read_eq_background_of_lt (hlt hlt' hp'.1)] at this
          exact absurd this hne
        · exact heq
        · have := hr k'
          simp only [Memory.read, if_true, show k' ≠ k by omega, if_false] at this
          rw [Memory.read_eq_background_of_lt (hlt hgt hp.1)] at this
          exact absurd this.symm hne'
      subst hk
      have hv : v = v' := by
        have := hr k
        simpa only [Memory.read, if_true] using this
      subst hv
      congr 1
      refine ih ⟨hp.2, fun c hc => h.2 c (by simp [hc])⟩ ⟨hp'.2, fun c hc => h'.2 c (by simp [hc])⟩ ?_
      intro a
      by_cases ha : a = k
      · subst ha
        rw [Memory.read_eq_background_of_lt hp.1, Memory.read_eq_background_of_lt hp'.1]
      · have := hr a
        simpa only [Memory.read, ha, if_false] using this

end Sys2Proof.Machine
end

