-- ==== Sys2Proof/Laws/State.lean ====
section
/-!
SUPPORT. The state's updates, field by field: what each named update leaves in each field, so that no
later proof unfolds one.
-/

namespace Sys2Proof.Machine

@[simp] theorem State.setV_mem (s : State) (x : Nibble) (b : Byte) :
    (s.setV x b).mem = s.mem := rfl
@[simp] theorem State.setV_i (s : State) (x : Nibble) (b : Byte) :
    (s.setV x b).i = s.i := rfl
@[simp] theorem State.setV_pc (s : State) (x : Nibble) (b : Byte) :
    (s.setV x b).pc = s.pc := rfl
@[simp] theorem State.setV_stack (s : State) (x : Nibble) (b : Byte) :
    (s.setV x b).stack = s.stack := rfl
@[simp] theorem State.setV_sp (s : State) (x : Nibble) (b : Byte) :
    (s.setV x b).sp = s.sp := rfl
@[simp] theorem State.setV_dt (s : State) (x : Nibble) (b : Byte) :
    (s.setV x b).dt = s.dt := rfl
@[simp] theorem State.setV_st (s : State) (x : Nibble) (b : Byte) :
    (s.setV x b).st = s.st := rfl
@[simp] theorem State.setV_disp (s : State) (x : Nibble) (b : Byte) :
    (s.setV x b).disp = s.disp := rfl
@[simp] theorem State.setV_keys (s : State) (x : Nibble) (b : Byte) :
    (s.setV x b).keys = s.keys := rfl
@[simp] theorem State.setV_pendingKey (s : State) (x : Nibble) (b : Byte) :
    (s.setV x b).pendingKey = s.pendingKey := rfl
@[simp] theorem State.setV_awaitingKey (s : State) (x : Nibble) (b : Byte) :
    (s.setV x b).awaitingKey = s.awaitingKey := rfl
@[simp] theorem State.setV_waitReg (s : State) (x : Nibble) (b : Byte) :
    (s.setV x b).waitReg = s.waitReg := rfl
@[simp] theorem State.setV_drawPending (s : State) (x : Nibble) (b : Byte) :
    (s.setV x b).drawPending = s.drawPending := rfl
@[simp] theorem State.setV_fault (s : State) (x : Nibble) (b : Byte) :
    (s.setV x b).fault = s.fault := rfl
@[simp] theorem State.setV_draws (s : State) (x : Nibble) (b : Byte) :
    (s.setV x b).draws = s.draws := rfl

@[simp] theorem State.setVF_mem (s : State) (b : Byte) : (s.setVF b).mem = s.mem := rfl
@[simp] theorem State.setVF_i (s : State) (b : Byte) : (s.setVF b).i = s.i := rfl
@[simp] theorem State.setVF_pc (s : State) (b : Byte) : (s.setVF b).pc = s.pc := rfl
@[simp] theorem State.setVF_stack (s : State) (b : Byte) : (s.setVF b).stack = s.stack := rfl
@[simp] theorem State.setVF_sp (s : State) (b : Byte) : (s.setVF b).sp = s.sp := rfl
@[simp] theorem State.setVF_dt (s : State) (b : Byte) : (s.setVF b).dt = s.dt := rfl
@[simp] theorem State.setVF_st (s : State) (b : Byte) : (s.setVF b).st = s.st := rfl
@[simp] theorem State.setVF_disp (s : State) (b : Byte) : (s.setVF b).disp = s.disp := rfl
@[simp] theorem State.setVF_keys (s : State) (b : Byte) : (s.setVF b).keys = s.keys := rfl
@[simp] theorem State.setVF_pendingKey (s : State) (b : Byte) : (s.setVF b).pendingKey = s.pendingKey := rfl
@[simp] theorem State.setVF_awaitingKey (s : State) (b : Byte) : (s.setVF b).awaitingKey = s.awaitingKey := rfl
@[simp] theorem State.setVF_waitReg (s : State) (b : Byte) : (s.setVF b).waitReg = s.waitReg := rfl
@[simp] theorem State.setVF_drawPending (s : State) (b : Byte) : (s.setVF b).drawPending = s.drawPending := rfl
@[simp] theorem State.setVF_fault (s : State) (b : Byte) : (s.setVF b).fault = s.fault := rfl
@[simp] theorem State.setVF_draws (s : State) (b : Byte) : (s.setVF b).draws = s.draws := rfl

@[simp] theorem State.raise_mem (s : State) (k : FaultKind) (o : Option Word) (n : Nat) :
    (s.raise k o n).mem = s.mem := rfl
@[simp] theorem State.raise_regs (s : State) (k : FaultKind) (o : Option Word) (n : Nat) :
    (s.raise k o n).regs = s.regs := rfl
@[simp] theorem State.raise_i (s : State) (k : FaultKind) (o : Option Word) (n : Nat) :
    (s.raise k o n).i = s.i := rfl
@[simp] theorem State.raise_pc (s : State) (k : FaultKind) (o : Option Word) (n : Nat) :
    (s.raise k o n).pc = s.pc := rfl
@[simp] theorem State.raise_stack (s : State) (k : FaultKind) (o : Option Word) (n : Nat) :
    (s.raise k o n).stack = s.stack := rfl
@[simp] theorem State.raise_sp (s : State) (k : FaultKind) (o : Option Word) (n : Nat) :
    (s.raise k o n).sp = s.sp := rfl
@[simp] theorem State.raise_dt (s : State) (k : FaultKind) (o : Option Word) (n : Nat) :
    (s.raise k o n).dt = s.dt := rfl
@[simp] theorem State.raise_st (s : State) (k : FaultKind) (o : Option Word) (n : Nat) :
    (s.raise k o n).st = s.st := rfl
@[simp] theorem State.raise_disp (s : State) (k : FaultKind) (o : Option Word) (n : Nat) :
    (s.raise k o n).disp = s.disp := rfl
@[simp] theorem State.raise_keys (s : State) (k : FaultKind) (o : Option Word) (n : Nat) :
    (s.raise k o n).keys = s.keys := rfl
@[simp] theorem State.raise_pendingKey (s : State) (k : FaultKind) (o : Option Word) (n : Nat) :
    (s.raise k o n).pendingKey = s.pendingKey := rfl
@[simp] theorem State.raise_awaitingKey (s : State) (k : FaultKind) (o : Option Word) (n : Nat) :
    (s.raise k o n).awaitingKey = s.awaitingKey := rfl
@[simp] theorem State.raise_waitReg (s : State) (k : FaultKind) (o : Option Word) (n : Nat) :
    (s.raise k o n).waitReg = s.waitReg := rfl
@[simp] theorem State.raise_drawPending (s : State) (k : FaultKind) (o : Option Word) (n : Nat) :
    (s.raise k o n).drawPending = s.drawPending := rfl
@[simp] theorem State.raise_draws (s : State) (k : FaultKind) (o : Option Word) (n : Nat) :
    (s.raise k o n).draws = s.draws := rfl
@[simp] theorem State.raise_fault (s : State) (k : FaultKind) (o : Option Word) (n : Nat) :
    (s.raise k o n).fault = some ⟨k, s.pc, o, n⟩ := rfl

@[simp] theorem State.raise_v (s : State) (k : FaultKind) (o : Option Word) (n : Nat) (x : Nibble) :
    (s.raise k o n).v x = s.v x := rfl

/-- A register reads as the byte last written to it; no register aliases another (R21). -/
theorem State.v_setV (s : State) (x y : Nibble) (b : Byte) :
    (s.setV x b).v y = if y = x then b else s.v y := by
  unfold State.v State.setV
  rw [Vector.getElem_set]
  simp only [BitVec.toNat_inj, eq_comm]

@[simp] theorem State.v_setV_self (s : State) (x : Nibble) (b : Byte) : (s.setV x b).v x = b := by
  simp [State.v_setV]

theorem State.v_setV_ne (s : State) {x y : Nibble} (b : Byte) (h : y ≠ x) :
    (s.setV x b).v y = s.v y := by
  simp [State.v_setV, h]

theorem State.v_setVF (s : State) (y : Nibble) (b : Byte) :
    (s.setVF b).v y = if y = 0xF then b else s.v y :=
  State.v_setV s 0xF y b

@[simp] theorem State.v_setVF_self (s : State) (b : Byte) : (s.setVF b).v 0xF = b :=
  State.v_setV_self s 0xF b

/-- A register reads the register file alone. -/
theorem State.v_congr {s t : State} (h : s.regs = t.regs) (x : Nibble) : s.v x = t.v x := by
  unfold State.v
  simp [h]

/-- Moving the counter leaves the registers. -/
@[simp] theorem State.v_with_pc (s : State) (a : Word) (x : Nibble) :
    State.v { s with pc := a } x = s.v x := rfl

/-- Two register files that agree on every register are equal. -/
theorem State.regs_ext {s t : State} (h : ∀ x, s.v x = t.v x) : s.regs = t.regs := by
  apply Vector.ext
  intro k hk
  have := h (BitVec.ofNat 4 k)
  unfold State.v at this
  simpa [Nat.mod_eq_of_lt hk] using this

@[simp] theorem State.supplyKey_mem (s : State) (k : Nibble) : (s.supplyKey k).mem = s.mem := by
  unfold State.supplyKey; split <;> rfl
@[simp] theorem State.supplyKey_i (s : State) (k : Nibble) : (s.supplyKey k).i = s.i := by
  unfold State.supplyKey; split <;> rfl
@[simp] theorem State.supplyKey_pc (s : State) (k : Nibble) : (s.supplyKey k).pc = s.pc := by
  unfold State.supplyKey; split <;> rfl
@[simp] theorem State.supplyKey_stack (s : State) (k : Nibble) : (s.supplyKey k).stack = s.stack := by
  unfold State.supplyKey; split <;> rfl
@[simp] theorem State.supplyKey_sp (s : State) (k : Nibble) : (s.supplyKey k).sp = s.sp := by
  unfold State.supplyKey; split <;> rfl
@[simp] theorem State.supplyKey_dt (s : State) (k : Nibble) : (s.supplyKey k).dt = s.dt := by
  unfold State.supplyKey; split <;> rfl
@[simp] theorem State.supplyKey_st (s : State) (k : Nibble) : (s.supplyKey k).st = s.st := by
  unfold State.supplyKey; split <;> rfl
@[simp] theorem State.supplyKey_disp (s : State) (k : Nibble) : (s.supplyKey k).disp = s.disp := by
  unfold State.supplyKey; split <;> rfl
@[simp] theorem State.supplyKey_keys (s : State) (k : Nibble) : (s.supplyKey k).keys = s.keys := by
  unfold State.supplyKey; split <;> rfl
@[simp] theorem State.supplyKey_waitReg (s : State) (k : Nibble) : (s.supplyKey k).waitReg = s.waitReg := by
  unfold State.supplyKey; split <;> rfl
@[simp] theorem State.supplyKey_drawPending (s : State) (k : Nibble) : (s.supplyKey k).drawPending = s.drawPending := by
  unfold State.supplyKey; split <;> rfl
@[simp] theorem State.supplyKey_fault (s : State) (k : Nibble) : (s.supplyKey k).fault = s.fault := by
  unfold State.supplyKey; split <;> rfl
@[simp] theorem State.supplyKey_draws (s : State) (k : Nibble) : (s.supplyKey k).draws = s.draws := by
  unfold State.supplyKey; split <;> rfl
@[simp] theorem State.supplyKey_pendingKey (s : State) (k : Nibble) :
    (s.supplyKey k).pendingKey = k := by
  unfold State.supplyKey; split <;> rfl
@[simp] theorem State.supplyKey_awaitingKey (s : State) (k : Nibble) :
    (s.supplyKey k).awaitingKey = false := by
  unfold State.supplyKey; split <;> simp_all

@[simp] theorem State.withFetchWord_regs (s : State) (n w : Nat) : (s.withFetchWord n w).regs = s.regs := rfl
@[simp] theorem State.withFetchWord_i (s : State) (n w : Nat) : (s.withFetchWord n w).i = s.i := rfl
@[simp] theorem State.withFetchWord_pc (s : State) (n w : Nat) : (s.withFetchWord n w).pc = s.pc := rfl
@[simp] theorem State.withFetchWord_stack (s : State) (n w : Nat) : (s.withFetchWord n w).stack = s.stack := rfl
@[simp] theorem State.withFetchWord_sp (s : State) (n w : Nat) : (s.withFetchWord n w).sp = s.sp := rfl
@[simp] theorem State.withFetchWord_dt (s : State) (n w : Nat) : (s.withFetchWord n w).dt = s.dt := rfl
@[simp] theorem State.withFetchWord_st (s : State) (n w : Nat) : (s.withFetchWord n w).st = s.st := rfl
@[simp] theorem State.withFetchWord_disp (s : State) (n w : Nat) : (s.withFetchWord n w).disp = s.disp := rfl
@[simp] theorem State.withFetchWord_keys (s : State) (n w : Nat) : (s.withFetchWord n w).keys = s.keys := rfl
@[simp] theorem State.withFetchWord_pendingKey (s : State) (n w : Nat) : (s.withFetchWord n w).pendingKey = s.pendingKey := rfl
@[simp] theorem State.withFetchWord_awaitingKey (s : State) (n w : Nat) : (s.withFetchWord n w).awaitingKey = s.awaitingKey := rfl
@[simp] theorem State.withFetchWord_waitReg (s : State) (n w : Nat) : (s.withFetchWord n w).waitReg = s.waitReg := rfl
@[simp] theorem State.withFetchWord_drawPending (s : State) (n w : Nat) : (s.withFetchWord n w).drawPending = s.drawPending := rfl
@[simp] theorem State.withFetchWord_fault (s : State) (n w : Nat) : (s.withFetchWord n w).fault = s.fault := rfl
@[simp] theorem State.withFetchWord_draws (s : State) (n w : Nat) : (s.withFetchWord n w).draws = s.draws := rfl
@[simp] theorem State.powerOn_regs : State.powerOn.regs = State.reset.regs := rfl
@[simp] theorem State.powerOn_i : State.powerOn.i = State.reset.i := rfl
@[simp] theorem State.powerOn_pc : State.powerOn.pc = State.reset.pc := rfl
@[simp] theorem State.powerOn_stack : State.powerOn.stack = State.reset.stack := rfl
@[simp] theorem State.powerOn_sp : State.powerOn.sp = State.reset.sp := rfl
@[simp] theorem State.powerOn_dt : State.powerOn.dt = State.reset.dt := rfl
@[simp] theorem State.powerOn_st : State.powerOn.st = State.reset.st := rfl
@[simp] theorem State.powerOn_disp : State.powerOn.disp = State.reset.disp := rfl
@[simp] theorem State.powerOn_keys : State.powerOn.keys = State.reset.keys := rfl
@[simp] theorem State.powerOn_pendingKey : State.powerOn.pendingKey = State.reset.pendingKey := rfl
@[simp] theorem State.powerOn_awaitingKey : State.powerOn.awaitingKey = State.reset.awaitingKey := rfl
@[simp] theorem State.powerOn_waitReg : State.powerOn.waitReg = State.reset.waitReg := rfl
@[simp] theorem State.powerOn_drawPending : State.powerOn.drawPending = State.reset.drawPending := rfl
@[simp] theorem State.powerOn_fault : State.powerOn.fault = State.reset.fault := rfl
@[simp] theorem State.powerOn_draws : State.powerOn.draws = State.reset.draws := rfl

end Sys2Proof.Machine
end

