-- ==== Sys2Proof/Laws/Ops.lean ====
section
/-!
SUPPORT. One lemma per shared operation, saying once everything it can answer: the address check, the
call stack, the resolver, the register transfers, the fetch and the enabling of a step.
-/

namespace Sys2Proof.Machine

/-! ### The address check (R64) -/

theorem outOfBounds_eq_none {base count : Nat} :
    outOfBounds base count = none ↔ count = 0 ∨ base + count ≤ memSize := by
  unfold outOfBounds
  split
  · simp_all
  · split <;> simp_all

theorem outOfBounds_eq_some {base count a : Nat} :
    outOfBounds base count = some a ↔
      count ≠ 0 ∧ memSize < base + count ∧ a = max base memSize := by
  unfold outOfBounds
  split
  · simp_all
  · split
    · simp_all
    · simp_all [eq_comm]

/-- The address reported is the lowest of the access that names no byte (R64). -/
theorem outOfBounds_lowest {base count a : Nat} (h : outOfBounds base count = some a) :
    base ≤ a ∧ a < base + count ∧ memSize ≤ a ∧ ∀ b, base ≤ b → b < a → b < memSize := by
  obtain ⟨h0, h1, rfl⟩ := outOfBounds_eq_some.mp h
  refine ⟨by omega, by omega, by omega, fun b hb hlt => ?_⟩
  omega

/-! ### The call stack (R27, R28) -/

theorem State.push_eq_none {s : State} {a : Word} : s.push a = none ↔ s.sp.val = 16 := by
  unfold State.push
  split
  · simp; omega
  · simp; omega

theorem State.push_of_lt {s : State} (a : Word) (h : s.sp.val < 16) :
    s.push a = some { s with
      stack := s.stack.set s.sp.val a h, sp := ⟨s.sp.val + 1, by omega⟩ } := by
  unfold State.push
  rw [dif_pos h]

theorem State.pop_eq_none {s : State} : s.pop = none ↔ s.sp.val = 0 := by
  unfold State.pop
  split
  · simp; omega
  · simp; omega

theorem State.pop_of_pos {s : State} (h : 0 < s.sp.val) :
    s.pop = some ({ s with sp := ⟨s.sp.val - 1, by omega⟩ }, s.stack[s.sp.val - 1]'(by omega)) := by
  unfold State.pop
  rw [dif_pos h]

/-! ### The resolver (R133) -/

@[simp] theorem resolve_advance (ins : Instr) (s t : State) :
    resolve ins s t .advance = .next { t with pc := s.pc + 2 } := rfl
@[simp] theorem resolve_skip (ins : Instr) (s t : State) :
    resolve ins s t .skip = .next { t with pc := s.pc + 4 } := rfl
@[simp] theorem resolve_jump (ins : Instr) (s t : State) (a : Word) :
    resolve ins s t (.jump a) = .next { t with pc := a } := rfl

/-- A conditional skip moves the counter by 4 or by 2 (R132, R133). -/
theorem resolve_skipIf (ins : Instr) (s t : State) (c : Bool) :
    resolve ins s t (skipIf c) = .next { t with pc := s.pc + if c then 4 else 2 } := by
  cases c <;> rfl

/-- The resolver always answers a next state: the writes made, or none and a recorded fault. -/
theorem resolve_next (ins : Instr) (s t : State) (o : PcOutcome) :
    (∃ a, resolve ins s t o = .next { t with pc := a }) ∨
      resolve ins s t o =
        .next (s.raise .internalInconsistency (some (encode ins)) s.pc.toNat) := by
  cases o
  · exact .inr rfl
  · exact .inl ⟨_, rfl⟩
  · exact .inl ⟨_, rfl⟩
  · exact .inl ⟨_, rfl⟩

@[simp] theorem raiseIn_eq (ins : Instr) (s : State) (k : FaultKind) (n : Nat) :
    raiseIn ins s k n = .next (s.raise k (some (encode ins)) n) := rfl

/-! ### The register transfers (R264, R265) -/

theorem State.length_regsUpTo (s : State) (x : Nibble) : (s.regsUpTo x).length = x.toNat + 1 := by
  have := x.isLt
  simp [State.regsUpTo]
  omega

theorem State.getElem_regsUpTo (s : State) (x : Nibble) (k : Nat) (h : k < (s.regsUpTo x).length) :
    (s.regsUpTo x)[k] = s.v (BitVec.ofNat 4 k) := by
  have hx := x.isLt
  have hk : k < 16 := by have := State.length_regsUpTo s x; omega
  simp [State.regsUpTo, State.v, Nat.mod_eq_of_lt hk]

/-- Loading registers from the k0-th on: those reached by the list take its bytes, the others keep
theirs. -/
theorem getElem_setRegsFrom (k0 : Nat) (bs : List Byte) (regs : Vector Byte 16) (k : Nat) (hk : k < 16) :
    (setRegsFrom k0 bs regs)[k] =
      if h : k0 ≤ k ∧ k < k0 + bs.length then bs[k - k0]'(by omega) else regs[k] := by
  induction bs generalizing k0 regs with
  | nil => simp only [setRegsFrom, List.length_nil]; rw [dif_neg (by omega)]
  | cons b rest ih =>
    simp only [List.length_cons]
    unfold setRegsFrom
    rw [ih]
    by_cases h1 : k0 + 1 ≤ k ∧ k < k0 + 1 + rest.length
    · rw [dif_pos h1, dif_pos (by omega)]
      obtain ⟨d, rfl⟩ : ∃ d, k = k0 + 1 + d := ⟨k - (k0 + 1), by omega⟩
      have e1 : k0 + 1 + d - (k0 + 1) = d := by omega
      have e2 : k0 + 1 + d - k0 = d + 1 := by omega
      simp [e1, e2]
    · rw [dif_neg h1]
      by_cases h2 : k = k0
      · subst h2
        rw [dif_pos (by omega), Vector.getElem_setIfInBounds_self]
        simp
      · rw [dif_neg (by omega), Vector.getElem_setIfInBounds_ne _ (by omega)]

/-! ### Enabling and fetching a step (R130, R135) -/

theorem stepDisabled_eq_none {policy : Bool} {s : State} :
    stepDisabled policy s = none ↔ s.fault = none ∧ (s.awaitingKey = false ∨ policy = true) := by
  unfold stepDisabled
  cases s.fault with
  | some r => simp
  | none => cases s.awaitingKey <;> cases policy <;> simp

theorem fetchWord_ok {s : State} (h : s.pc.toNat < 0xFFF) :
    fetchWord s = .ok (joinBytes (s.mem.read s.pc.toNat) (s.mem.read (s.pc.toNat + 1))) := by
  unfold fetchWord memSize
  rw [if_neg (by omega), if_neg (by omega)]

theorem fetchWord_error {s : State} (h : 0xFFF ≤ s.pc.toNat) :
    fetchWord s = .error (max s.pc.toNat 0x1000) := by
  unfold fetchWord memSize
  split
  · rw [Nat.max_eq_left (by omega)]
  · rw [if_pos (by omega), Nat.max_eq_right (by omega)]
    congr 1; omega

/-- A word stored where an instruction is fetched is the word fetched (R66, R73). -/
theorem fetchWord_withFetchWord (s : State) (n w : Nat) (h : s.pc.toNat < 0xFFF) :
    fetchWord (s.withFetchWord n w) = .ok (BitVec.ofNat 16 w) := by
  have hlen : s.pc.toNat + [highByte (BitVec.ofNat 16 w), lowByte (BitVec.ofNat 16 w)].length ≤ memSize := by
    simp [memSize]; omega
  rw [fetchWord_ok (by simpa using h)]
  simp only [State.withFetchWord, Memory.storeWord]
  rw [Memory.read_storeBytes _ _ _ _ hlen, Memory.read_storeBytes _ _ _ _ hlen,
    dif_pos (by simp), dif_pos (by simp)]
  simp

end Sys2Proof.Machine
end

