-- ==== Sys2Proof/Laws/Display.lean ====
section
/-!
SUPPORT. The laws of the display grid and of the drawing loops (43_display.md R220, R222, R223).
-/

namespace Sys2Proof.Machine

theorem Grid.cell_setCell (g : Grid) (c c' : Fin 64) (r r' : Fin 32) (b : Bool) :
    Grid.cell (Grid.setCell g c r b) c' r' = if c' = c ∧ r' = r then b else Grid.cell g c' r' := by
  unfold Grid.cell Grid.setCell
  rw [Vector.getElem_set]
  by_cases hr : r = r'
  · subst hr
    rw [if_pos rfl, Vector.getElem_set]
    simp only [Fin.val_inj, eq_comm, and_true]
  · rw [if_neg (by simpa [Fin.val_inj] using hr), if_neg (by rintro ⟨-, rfl⟩; exact hr rfl)]

@[simp] theorem Grid.cell_unlit (c : Fin 64) (r : Fin 32) : Grid.cell Grid.unlit c r = false := by
  simp [Grid.cell, Grid.unlit]

/-- Two displays with the same cells are equal. -/
theorem Grid.ext {g g' : Grid} (h : ∀ c r, Grid.cell g c r = Grid.cell g' c r) : g = g' := by
  apply Vector.ext
  intro r hr
  apply Vector.ext
  intro c hc
  exact h ⟨c, hc⟩ ⟨r, hr⟩

theorem cell_drawCell (c c' : Fin 64) (r r' : Fin 32) (k : Canvas) :
    Grid.cell (drawCell c r k).1 c' r' =
      (Grid.cell k.1 c' r' ^^ (decide (c' = c) && decide (r' = r))) := by
  unfold drawCell
  rw [Grid.cell_setCell]
  by_cases h : c' = c ∧ r' = r
  · obtain ⟨rfl, rfl⟩ := h
    simp
  · rw [if_neg h]
    rw [← Bool.decide_and, decide_eq_false h]
    simp

/-- The eight columns of a sprite row are distinct (R223). -/
theorem spriteColumn_inj {vx : Byte} {c c' : Nat} (h : c < 8) (h' : c' < 8)
    (he : spriteColumn vx c = spriteColumn vx c') : c = c' := by
  simp only [spriteColumn, Fin.mk.injEq] at he
  omega

/-- At most 32 rows of a sprite are distinct (R223). -/
theorem spriteLine_inj {vy : Byte} {r r' : Nat} (h : r < r' + 32) (h' : r' < r + 32)
    (he : spriteLine vy r = spriteLine vy r') : r = r' := by
  simp only [spriteLine, Fin.mk.injEq] at he
  omega

/-- Drawing columns of one row: a cell is inverted when some column with bit 1 lands on it, and the
collision flag notes a lit cell under such a column. -/
theorem drawColumns_spec (vx : Byte) (line : Fin 32) (row : Byte) (cols : List Nat)
    (hlt : ∀ c ∈ cols, c < 8) (hnd : cols.Nodup) (k : Canvas) :
    (∀ c' r', Grid.cell (drawColumns vx line row cols k).1 c' r' =
      (Grid.cell k.1 c' r' ^^
        (decide (r' = line) && cols.any fun c => spriteBit row c && decide (c' = spriteColumn vx c)))) ∧
    (drawColumns vx line row cols k).2 =
      (k.2 || cols.any fun c => spriteBit row c && Grid.cell k.1 (spriteColumn vx c) line) := by
  induction cols generalizing k with
  | nil => simp [drawColumns]
  | cons c rest ih =>
    obtain ⟨hc, hnd'⟩ := List.nodup_cons.mp hnd
    have hlt' : ∀ c ∈ rest, c < 8 := fun d hd => hlt d (by simp [hd])
    have hne : ∀ d ∈ rest, spriteColumn vx d ≠ spriteColumn vx c := by
      intro d hd he
      have := spriteColumn_inj (hlt' d hd) (hlt c (by simp)) he
      exact hc (this ▸ hd)
    have ih' := ih hlt' hnd' (if spriteBit row c then drawCell (spriteColumn vx c) line k else k)
    unfold drawColumns
    cases hb : spriteBit row c with
    | false => simpa [hb] using ih'
    | true =>
      simp only [hb, if_true] at ih'
      refine ⟨fun c' r' => ?_, ?_⟩
      · rw [if_pos rfl, ih'.1, cell_drawCell]
        by_cases hl : r' = line
        · by_cases hc' : c' = spriteColumn vx c
          · have : (rest.any fun d => spriteBit row d && decide (c' = spriteColumn vx d)) = false := by
              simp only [List.any_eq_false, Bool.and_eq_true, decide_eq_true_eq, not_and]
              intro d hd _ he
              exact hne d hd (he ▸ hc')
            simp [hl, hc', hb]
            rw [← hc', this]
            simp
          · simp [hl, hc', hb]
        · simp [hl]
      · rw [if_pos rfl, ih'.2]
        have hany : (rest.any fun d => spriteBit row d &&
              Grid.cell (drawCell (spriteColumn vx c) line k).1 (spriteColumn vx d) line) =
            rest.any fun d => spriteBit row d && Grid.cell k.1 (spriteColumn vx d) line := by
          rw [Bool.eq_iff_iff]
          simp only [List.any_eq_true]
          constructor
          · rintro ⟨d, hd, h⟩
            refine ⟨d, hd, ?_⟩
            simpa [cell_drawCell, hne d hd] using h
          · rintro ⟨d, hd, h⟩
            refine ⟨d, hd, ?_⟩
            simpa [cell_drawCell, hne d hd] using h
        rw [hany]
        simp [drawCell, hb, Bool.or_assoc]

/-- A cell that a sprite's row `row`, standing at sprite row `j`, inverts (R220). -/
def rowCovers (vx vy : Byte) (row : Byte) (j : Nat) (c : Fin 64) (r : Fin 32) : Bool :=
  decide (r = spriteLine vy j) &&
    [0, 1, 2, 3, 4, 5, 6, 7].any fun b => spriteBit row b && decide (c = spriteColumn vx b)

/-- A cell that a sprite, drawn from its row `j` on, inverts (R220). -/
def spriteCovers (vx vy : Byte) (c : Fin 64) (r : Fin 32) : Nat → List Byte → Bool
  | _, [] => false
  | j, row :: rest => rowCovers vx vy row j c r || spriteCovers vx vy c r (j + 1) rest

theorem spriteCovers_iff {vx vy : Byte} {c : Fin 64} {r : Fin 32} {j : Nat} {rows : List Byte} :
    spriteCovers vx vy c r j rows = true ↔
      ∃ (d : Nat) (h : d < rows.length), rowCovers vx vy (rows[d]) (j + d) c r = true := by
  induction rows generalizing j with
  | nil => simp [spriteCovers]
  | cons row rest ih =>
    simp only [spriteCovers, Bool.or_eq_true, ih]
    constructor
    · rintro (h | ⟨d, hd, h⟩)
      · exact ⟨0, by simp, by simpa using h⟩
      · refine ⟨d + 1, by simpa using hd, ?_⟩
        simpa [Nat.add_assoc, Nat.add_comm 1 d] using h
    · rintro ⟨d, hd, h⟩
      cases d with
      | zero => exact .inl (by simpa using h)
      | succ d =>
        refine .inr ⟨d, by simpa using hd, ?_⟩
        simpa [Nat.add_assoc, Nat.add_comm 1 d] using h

/-- Drawing one row: cell and collision (R222, R223). -/
theorem drawColumns_row (vx vy : Byte) (j : Nat) (row : Byte) (k : Canvas) :
    (∀ c r, Grid.cell (drawColumns vx (spriteLine vy j) row [0, 1, 2, 3, 4, 5, 6, 7] k).1 c r =
      (Grid.cell k.1 c r ^^ rowCovers vx vy row j c r)) ∧
    ((drawColumns vx (spriteLine vy j) row [0, 1, 2, 3, 4, 5, 6, 7] k).2 = true ↔
      k.2 = true ∨ ∃ c r, rowCovers vx vy row j c r = true ∧ Grid.cell k.1 c r = true) := by
  obtain ⟨h1, h2⟩ := drawColumns_spec vx (spriteLine vy j) row [0, 1, 2, 3, 4, 5, 6, 7]
    (by decide) (by decide) k
  refine ⟨h1, ?_⟩
  rw [h2, Bool.or_eq_true]
  refine or_congr_right ?_
  simp only [List.any_eq_true, Bool.and_eq_true, rowCovers, decide_eq_true_eq]
  constructor
  · rintro ⟨b, hb, hbit, hcell⟩
    exact ⟨spriteColumn vx b, spriteLine vy j, ⟨rfl, b, hb, hbit, rfl⟩, hcell⟩
  · rintro ⟨c, r, ⟨rfl, b, hb, hbit, rfl⟩, hcell⟩
    exact ⟨b, hb, hbit, hcell⟩

/-- Drawing a whole sprite of at most 32 rows: a cell is inverted when the sprite covers it, and the
collision flag says whether a covered cell was lit (R222, R223). -/
theorem drawRows_spec (vx vy : Byte) (j : Nat) (rows : List Byte) (h : rows.length ≤ 32) (k : Canvas) :
    (∀ c r, Grid.cell (drawRows vx vy j rows k).1 c r =
      (Grid.cell k.1 c r ^^ spriteCovers vx vy c r j rows)) ∧
    ((drawRows vx vy j rows k).2 = true ↔
      k.2 = true ∨ ∃ c r, spriteCovers vx vy c r j rows = true ∧ Grid.cell k.1 c r = true) := by
  induction rows generalizing j k with
  | nil => simp [drawRows, spriteCovers]
  | cons row rest ih =>
    simp only [List.length_cons] at h
    obtain ⟨r1, r2⟩ := drawColumns_row vx vy j row k
    obtain ⟨i1, i2⟩ := ih (j + 1) (by omega)
      (drawColumns vx (spriteLine vy j) row [0, 1, 2, 3, 4, 5, 6, 7] k)
    have hdisj : ∀ c r, rowCovers vx vy row j c r = true →
        spriteCovers vx vy c r (j + 1) rest = false := by
      intro c r hr
      rw [Bool.eq_false_iff, Ne, spriteCovers_iff]
      rintro ⟨d, hd, hd'⟩
      simp only [rowCovers, Bool.and_eq_true, decide_eq_true_eq] at hr hd'
      have := spriteLine_inj (vy := vy) (r := j) (r' := j + 1 + d) (by omega) (by omega)
        (hr.1.symm.trans hd'.1)
      omega
    unfold drawRows
    refine ⟨fun c r => ?_, ?_⟩
    · rw [i1, r1, spriteCovers]
      cases hr : rowCovers vx vy row j c r with
      | false => simp
      | true => simp [hdisj c r hr]
    · rw [i2, r2, or_assoc]
      refine or_congr_right ?_
      simp only [spriteCovers, Bool.or_eq_true]
      constructor
      · rintro (⟨c, r, hr, hk⟩ | ⟨c, r, hr, hk⟩)
        · exact ⟨c, r, .inl hr, hk⟩
        · refine ⟨c, r, .inr hr, ?_⟩
          rw [r1] at hk
          have : rowCovers vx vy row j c r = false := by
            by_contra hne
            rw [hdisj c r (by simpa using hne)] at hr
            cases hr
          simpa [this] using hk
      · rintro ⟨c, r, hr | hr, hk⟩
        · exact .inl ⟨c, r, hr, hk⟩
        · refine .inr ⟨c, r, hr, ?_⟩
          have : rowCovers vx vy row j c r = false := by
            by_contra hne
            rw [hdisj c r (by simpa using hne)] at hr
            cases hr
          rw [r1, this]
          simpa using hk

end Sys2Proof.Machine
end

