-- ==== Sys2Proof/Laws/Exec.lean ====
section
/-!
SUPPORT. What each instruction answers, written once as an equation (or as one equation for each side
of its own check), and the inversion lemma of `exec`: writes made and the fault field left alone, or
nothing but a recorded fault.
-/

namespace Sys2Proof.Machine

/-! ### Control flow -/

theorem exec_ret_of_pos {s : State} (h : 0 < s.sp.val) :
    exec .ret s = .next { s with
      sp := ⟨s.sp.val - 1, by omega⟩, pc := s.stack[s.sp.val - 1]'(by omega) } := by
  show execRet s = _
  unfold execRet
  rw [State.pop_of_pos h]
  rfl

theorem exec_ret_of_zero {s : State} (h : s.sp.val = 0) :
    exec .ret s = .next (s.raise .stackUnderflow (some 0x00EE) 0) := by
  show execRet s = _
  unfold execRet
  rw [State.pop_eq_none.mpr h]
  rfl

theorem exec_jpNnn (nnn : Addr12) (s : State) :
    exec (.jpNnn nnn) s = .next { s with pc := nnn.zeroExtend 16 } := rfl

theorem exec_callNnn_of_lt (nnn : Addr12) {s : State} (h : s.sp.val < 16) :
    exec (.callNnn nnn) s = .next { s with
      stack := s.stack.set s.sp.val (s.pc + 2) h, sp := ⟨s.sp.val + 1, by omega⟩
      pc := nnn.zeroExtend 16 } := by
  show execCallNnn nnn s = _
  unfold execCallNnn
  rw [State.push_of_lt _ h]
  rfl

theorem exec_callNnn_of_full (nnn : Addr12) {s : State} (h : s.sp.val = 16) :
    exec (.callNnn nnn) s = .next (s.raise .stackOverflow (some (encode (.callNnn nnn))) 16) := by
  show execCallNnn nnn s = _
  unfold execCallNnn
  rw [State.push_eq_none.mpr h]
  rfl

theorem exec_seVxKk (x : Nibble) (kk : Byte) (s : State) :
    exec (.seVxKk x kk) s = .next { s with pc := s.pc + if s.v x == kk then 4 else 2 } :=
  resolve_skipIf _ s s _
theorem exec_sneVxKk (x : Nibble) (kk : Byte) (s : State) :
    exec (.sneVxKk x kk) s = .next { s with pc := s.pc + if s.v x != kk then 4 else 2 } :=
  resolve_skipIf _ s s _
theorem exec_seVxVy (x y : Nibble) (s : State) :
    exec (.seVxVy x y) s = .next { s with pc := s.pc + if s.v x == s.v y then 4 else 2 } :=
  resolve_skipIf _ s s _
theorem exec_sneVxVy (x y : Nibble) (s : State) :
    exec (.sneVxVy x y) s = .next { s with pc := s.pc + if s.v x != s.v y then 4 else 2 } :=
  resolve_skipIf _ s s _
theorem exec_jpV0Nnn (nnn : Addr12) (s : State) :
    exec (.jpV0Nnn nnn) s = .next { s with pc := offsetTarget nnn (s.v 0) } := rfl

/-! ### ALU -/

theorem exec_ldVxKk (x : Nibble) (kk : Byte) (s : State) :
    exec (.ldVxKk x kk) s = .next { s.setV x kk with pc := s.pc + 2 } := rfl
theorem exec_addVxKk (x : Nibble) (kk : Byte) (s : State) :
    exec (.addVxKk x kk) s = .next { s.setV x (s.v x + kk) with pc := s.pc + 2 } := rfl
theorem exec_ldVxVy (x y : Nibble) (s : State) :
    exec (.ldVxVy x y) s = .next { s.setV x (s.v y) with pc := s.pc + 2 } := rfl
theorem exec_orVxVy (x y : Nibble) (s : State) :
    exec (.orVxVy x y) s = .next { s.setV x (s.v x ||| s.v y) with pc := s.pc + 2 } := rfl
theorem exec_andVxVy (x y : Nibble) (s : State) :
    exec (.andVxVy x y) s = .next { s.setV x (s.v x &&& s.v y) with pc := s.pc + 2 } := rfl
theorem exec_xorVxVy (x y : Nibble) (s : State) :
    exec (.xorVxVy x y) s = .next { s.setV x (s.v x ^^^ s.v y) with pc := s.pc + 2 } := rfl
theorem exec_addVxVy (x y : Nibble) (s : State) :
    exec (.addVxVy x y) s = .next
      { (s.setV x (s.v x + s.v y)).setVF (carryFlag (s.v x) (s.v y)) with pc := s.pc + 2 } := rfl
theorem exec_subVxVy (x y : Nibble) (s : State) :
    exec (.subVxVy x y) s = .next
      { (s.setVF (noBorrowFlag (s.v x) (s.v y))).setV x (s.v x - s.v y) with pc := s.pc + 2 } := rfl
theorem exec_shrVx (x : Nibble) (s : State) :
    exec (.shrVx x) s = .next
      { (s.setVF (lowBitFlag (s.v x))).setV x (s.v x >>> 1) with pc := s.pc + 2 } := rfl
theorem exec_subnVxVy (x y : Nibble) (s : State) :
    exec (.subnVxVy x y) s = .next
      { (s.setVF (negativeFlag (s.v x) (s.v y))).setV x (s.v y - s.v x) with pc := s.pc + 2 } := rfl
theorem exec_shlVx (x : Nibble) (s : State) :
    exec (.shlVx x) s = .next
      { (s.setVF (highBitFlag (s.v x))).setV x (s.v x <<< 1) with pc := s.pc + 2 } := rfl
theorem exec_rndVxKk (x : Nibble) (kk : Byte) (s : State) :
    exec (.rndVxKk x kk) s = .next
      { s.setV x (Config.randByte s.draws &&& kk) with draws := s.draws + 1, pc := s.pc + 2 } := rfl

/-! ### Display -/

theorem exec_cls (s : State) :
    exec .cls s = .next { s with disp := Grid.unlit, drawPending := true, pc := s.pc + 2 } := rfl

theorem exec_drwVxVyN_of_inBounds (x y n : Nibble) {s : State}
    (h : n.toNat = 0 ∨ s.i.toNat + n.toNat ≤ 0x1000) :
    exec (.drwVxVyN x y n) s = .next
      { s.setVF (flag (drawRows (s.v x) (s.v y) 0 (s.mem.loadBytes s.base n.toNat) (s.disp, false)).2) with
        disp := (drawRows (s.v x) (s.v y) 0 (s.mem.loadBytes s.base n.toNat) (s.disp, false)).1
        drawPending := true
        pc := s.pc + 2 } := by
  show execDrwVxVyN x y n s = _
  unfold execDrwVxVyN
  rw [(outOfBounds_eq_none (base := s.base)).mpr h]
  rfl

theorem exec_drwVxVyN_of_outOfBounds (x y n : Nibble) {s : State}
    (h0 : n.toNat ≠ 0) (h : 0x1000 < s.i.toNat + n.toNat) :
    exec (.drwVxVyN x y n) s = .next
      (s.raise .memoryOutOfBounds (some (encode (.drwVxVyN x y n))) (max s.i.toNat 0x1000)) := by
  show execDrwVxVyN x y n s = _
  unfold execDrwVxVyN
  rw [(outOfBounds_eq_some (base := s.base)).mpr ⟨h0, h, rfl⟩]
  rfl

/-! ### Keys and timers -/

theorem exec_skpVx_of_lt (x : Nibble) {s : State} (h : (s.v x).toNat < 16) :
    exec (.skpVx x) s = .next { s with pc := s.pc + if s.keys[(s.v x).toNat] then 4 else 2 } := by
  show execSkpVx x s = _
  unfold execSkpVx keyDown
  rw [dif_pos h]
  exact resolve_skipIf _ s s _

theorem exec_skpVx_of_ge (x : Nibble) {s : State} (h : 16 ≤ (s.v x).toNat) :
    exec (.skpVx x) s = .next
      (s.raise .keyIndexOutOfRange (some (encode (.skpVx x))) (s.v x).toNat) := by
  show execSkpVx x s = _
  unfold execSkpVx keyDown
  rw [dif_neg (by omega)]
  rfl

theorem exec_sknpVx_of_lt (x : Nibble) {s : State} (h : (s.v x).toNat < 16) :
    exec (.sknpVx x) s = .next { s with pc := s.pc + if !s.keys[(s.v x).toNat] then 4 else 2 } := by
  show execSknpVx x s = _
  unfold execSknpVx keyDown
  rw [dif_pos h]
  exact resolve_skipIf _ s s _

theorem exec_sknpVx_of_ge (x : Nibble) {s : State} (h : 16 ≤ (s.v x).toNat) :
    exec (.sknpVx x) s = .next
      (s.raise .keyIndexOutOfRange (some (encode (.sknpVx x))) (s.v x).toNat) := by
  show execSknpVx x s = _
  unfold execSknpVx keyDown
  rw [dif_neg (by omega)]
  rfl

theorem exec_ldVxDt (x : Nibble) (s : State) :
    exec (.ldVxDt x) s = .next { s.setV x s.dt with pc := s.pc + 2 } := rfl
theorem exec_ldVxK (x : Nibble) (s : State) :
    exec (.ldVxK x) s = .next { s with awaitingKey := true, waitReg := x, pc := s.pc + 2 } := rfl
theorem exec_ldDtVx (x : Nibble) (s : State) :
    exec (.ldDtVx x) s = .next { s with dt := s.v x, pc := s.pc + 2 } := rfl
theorem exec_ldStVx (x : Nibble) (s : State) :
    exec (.ldStVx x) s = .next { s with st := s.v x, pc := s.pc + 2 } := rfl

/-! ### Index and memory -/

theorem exec_ldINnn (nnn : Addr12) (s : State) :
    exec (.ldINnn nnn) s = .next { s with i := nnn.zeroExtend 16, pc := s.pc + 2 } := rfl
theorem exec_addIVx (x : Nibble) (s : State) :
    exec (.addIVx x) s = .next
      { s.setVF (indexFlag (indexSum s.i (s.v x))) with
        i := indexSum s.i (s.v x), pc := s.pc + 2 } := rfl
theorem exec_ldFVx (x : Nibble) (s : State) :
    exec (.ldFVx x) s = .next { s with i := glyphAddress (s.v x), pc := s.pc + 2 } := rfl

theorem exec_ldBVx_of_inBounds (x : Nibble) {s : State} (h : s.i.toNat + 3 ≤ 0x1000) :
    exec (.ldBVx x) s = .next
      { s with mem := s.mem.storeBytes s.base (bcdDigits (s.v x)), pc := s.pc + 2 } := by
  show execLdBVx x s = _
  unfold execLdBVx
  rw [(outOfBounds_eq_none (base := s.base)).mpr (.inr h)]
  rfl

theorem exec_ldBVx_of_outOfBounds (x : Nibble) {s : State} (h : 0x1000 < s.i.toNat + 3) :
    exec (.ldBVx x) s = .next
      (s.raise .memoryOutOfBounds (some (encode (.ldBVx x))) (max s.i.toNat 0x1000)) := by
  show execLdBVx x s = _
  unfold execLdBVx
  rw [(outOfBounds_eq_some (base := s.base)).mpr ⟨by decide, h, rfl⟩]
  rfl

theorem exec_ldMemVx_of_inBounds (x : Nibble) {s : State} (h : s.i.toNat + (x.toNat + 1) ≤ 0x1000) :
    exec (.ldMemVx x) s = .next
      { s with
        mem := s.mem.storeBytes s.base (s.regsUpTo x), i := indexAfterDump s.i x, pc := s.pc + 2 } := by
  show execLdMemVx x s = _
  unfold execLdMemVx
  rw [(outOfBounds_eq_none (base := s.base)).mpr (.inr h)]
  rfl

theorem exec_ldMemVx_of_outOfBounds (x : Nibble) {s : State}
    (h : 0x1000 < s.i.toNat + (x.toNat + 1)) :
    exec (.ldMemVx x) s = .next
      (s.raise .memoryOutOfBounds (some (encode (.ldMemVx x))) (max s.i.toNat 0x1000)) := by
  show execLdMemVx x s = _
  unfold execLdMemVx
  rw [(outOfBounds_eq_some (base := s.base)).mpr ⟨by omega, h, rfl⟩]
  rfl

theorem exec_ldVxMem_of_inBounds (x : Nibble) {s : State} (h : s.i.toNat + (x.toNat + 1) ≤ 0x1000) :
    exec (.ldVxMem x) s = .next
      { s with
        regs := setRegsFrom 0 (s.mem.loadBytes s.base (x.toNat + 1)) s.regs, pc := s.pc + 2 } := by
  show execLdVxMem x s = _
  unfold execLdVxMem
  rw [(outOfBounds_eq_none (base := s.base)).mpr (.inr h)]
  rfl

theorem exec_ldVxMem_of_outOfBounds (x : Nibble) {s : State}
    (h : 0x1000 < s.i.toNat + (x.toNat + 1)) :
    exec (.ldVxMem x) s = .next
      (s.raise .memoryOutOfBounds (some (encode (.ldVxMem x))) (max s.i.toNat 0x1000)) := by
  show execLdVxMem x s = _
  unfold execLdVxMem
  rw [(outOfBounds_eq_some (base := s.base)).mpr ⟨by omega, h, rfl⟩]
  rfl

/-! ### Inversion -/

/-- An instruction answers a next state, whatever the state: its writes with the fault field left
alone, or the state before it with nothing but a fault recorded (R136). -/
theorem exec_inversion (i : Instr) (s : State) :
    (∃ t, exec i s = .next t ∧ t.fault = s.fault) ∨
      ∃ k n, exec i s = .next (s.raise k (some (encode i)) n) := by
  cases i with
  | ret =>
    rcases Nat.eq_zero_or_pos s.sp.val with h | h
    · exact .inr ⟨_, _, exec_ret_of_zero h⟩
    · exact .inl ⟨_, exec_ret_of_pos h, rfl⟩
  | callNnn nnn =>
    rcases Nat.lt_or_ge s.sp.val 16 with h | h
    · exact .inl ⟨_, exec_callNnn_of_lt nnn h, rfl⟩
    · exact .inr ⟨_, _, exec_callNnn_of_full nnn (by omega)⟩
  | seVxKk x kk => exact .inl ⟨_, exec_seVxKk x kk s, rfl⟩
  | sneVxKk x kk => exact .inl ⟨_, exec_sneVxKk x kk s, rfl⟩
  | seVxVy x y => exact .inl ⟨_, exec_seVxVy x y s, rfl⟩
  | sneVxVy x y => exact .inl ⟨_, exec_sneVxVy x y s, rfl⟩
  | drwVxVyN x y n =>
    by_cases h : n.toNat = 0 ∨ s.i.toNat + n.toNat ≤ 0x1000
    · exact .inl ⟨_, exec_drwVxVyN_of_inBounds x y n h, rfl⟩
    · exact .inr ⟨_, _, exec_drwVxVyN_of_outOfBounds x y n (by omega) (by omega)⟩
  | skpVx x =>
    rcases Nat.lt_or_ge (s.v x).toNat 16 with h | h
    · exact .inl ⟨_, exec_skpVx_of_lt x h, rfl⟩
    · exact .inr ⟨_, _, exec_skpVx_of_ge x h⟩
  | sknpVx x =>
    rcases Nat.lt_or_ge (s.v x).toNat 16 with h | h
    · exact .inl ⟨_, exec_sknpVx_of_lt x h, rfl⟩
    · exact .inr ⟨_, _, exec_sknpVx_of_ge x h⟩
  | ldBVx x =>
    rcases Nat.lt_or_ge 0x1000 (s.i.toNat + 3) with h | h
    · exact .inr ⟨_, _, exec_ldBVx_of_outOfBounds x h⟩
    · exact .inl ⟨_, exec_ldBVx_of_inBounds x h, rfl⟩
  | ldMemVx x =>
    rcases Nat.lt_or_ge 0x1000 (s.i.toNat + (x.toNat + 1)) with h | h
    · exact .inr ⟨_, _, exec_ldMemVx_of_outOfBounds x h⟩
    · exact .inl ⟨_, exec_ldMemVx_of_inBounds x h, rfl⟩
  | ldVxMem x =>
    rcases Nat.lt_or_ge 0x1000 (s.i.toNat + (x.toNat + 1)) with h | h
    · exact .inr ⟨_, _, exec_ldVxMem_of_outOfBounds x h⟩
    · exact .inl ⟨_, exec_ldVxMem_of_inBounds x h, rfl⟩
  | cls | jpNnn _ | jpV0Nnn _ | ldVxKk _ _ | addVxKk _ _ | ldVxVy _ _ | orVxVy _ _ | andVxVy _ _
  | xorVxVy _ _ | addVxVy _ _ | subVxVy _ _ | shrVx _ | subnVxVy _ _ | shlVx _ | ldINnn _
  | rndVxKk _ _ | ldVxDt _ | ldVxK _ | ldDtVx _ | ldStVx _ | addIVx _ | ldFVx _ =>
    exact .inl ⟨_, rfl, rfl⟩

end Sys2Proof.Machine
end

