-- ==== Sys2Proof/Laws/PerInstr.lean ====
section
/-!
SUPPORT. A statement made once per instruction: its encoding fits its own row of the opcode map
(30_encoding.md R92, R96), whatever its operands.
-/

namespace Sys2Proof.Laws

/-- The instruction's row is one of the opcode map's, and its word has that row's fixed bits. -/
def FitsRow.Statement (i : Instr) : Prop := i.row ∈ opcodeRows ∧ i.row.fits (encode i) = true

theorem fitsRow_of {i : Instr} (h : i.row ∈ opcodeRows) (h' : encode i &&& i.row.mask = i.row.value) :
    FitsRow.Statement i :=
  ⟨h, by simp [OpcodeRow.fits, h']⟩

theorem FitsRow.cls :
    FitsRow.Statement .cls :=
  ⟨by decide, by decide⟩
theorem FitsRow.ret :
    FitsRow.Statement .ret :=
  ⟨by decide, by decide⟩
theorem FitsRow.jpNnn (nnn : Addr12) :
    FitsRow.Statement (.jpNnn nnn) :=
  fitsRow_of (by simp [Instr.row, opcodeRows]) (packNnn_fits _ _)
theorem FitsRow.callNnn (nnn : Addr12) :
    FitsRow.Statement (.callNnn nnn) :=
  fitsRow_of (by simp [Instr.row, opcodeRows]) (packNnn_fits _ _)
theorem FitsRow.seVxKk (x : Nibble) (kk : Byte) :
    FitsRow.Statement (.seVxKk x kk) :=
  fitsRow_of (by simp [Instr.row, opcodeRows]) (packXkk_fits _ _ _)
theorem FitsRow.sneVxKk (x : Nibble) (kk : Byte) :
    FitsRow.Statement (.sneVxKk x kk) :=
  fitsRow_of (by simp [Instr.row, opcodeRows]) (packXkk_fits _ _ _)
theorem FitsRow.seVxVy (x y : Nibble) :
    FitsRow.Statement (.seVxVy x y) :=
  fitsRow_of (by simp [Instr.row, opcodeRows]) (packXy_fits _ _ _ _)
theorem FitsRow.ldVxKk (x : Nibble) (kk : Byte) :
    FitsRow.Statement (.ldVxKk x kk) :=
  fitsRow_of (by simp [Instr.row, opcodeRows]) (packXkk_fits _ _ _)
theorem FitsRow.addVxKk (x : Nibble) (kk : Byte) :
    FitsRow.Statement (.addVxKk x kk) :=
  fitsRow_of (by simp [Instr.row, opcodeRows]) (packXkk_fits _ _ _)
theorem FitsRow.ldVxVy (x y : Nibble) :
    FitsRow.Statement (.ldVxVy x y) :=
  fitsRow_of (by simp [Instr.row, opcodeRows]) (packXy_fits _ _ _ _)
theorem FitsRow.orVxVy (x y : Nibble) :
    FitsRow.Statement (.orVxVy x y) :=
  fitsRow_of (by simp [Instr.row, opcodeRows]) (packXy_fits _ _ _ _)
theorem FitsRow.andVxVy (x y : Nibble) :
    FitsRow.Statement (.andVxVy x y) :=
  fitsRow_of (by simp [Instr.row, opcodeRows]) (packXy_fits _ _ _ _)
theorem FitsRow.xorVxVy (x y : Nibble) :
    FitsRow.Statement (.xorVxVy x y) :=
  fitsRow_of (by simp [Instr.row, opcodeRows]) (packXy_fits _ _ _ _)
theorem FitsRow.addVxVy (x y : Nibble) :
    FitsRow.Statement (.addVxVy x y) :=
  fitsRow_of (by simp [Instr.row, opcodeRows]) (packXy_fits _ _ _ _)
theorem FitsRow.subVxVy (x y : Nibble) :
    FitsRow.Statement (.subVxVy x y) :=
  fitsRow_of (by simp [Instr.row, opcodeRows]) (packXy_fits _ _ _ _)
theorem FitsRow.shrVx (x : Nibble) :
    FitsRow.Statement (.shrVx x) :=
  fitsRow_of (by simp [Instr.row, opcodeRows]) (packXy_fits _ _ _ _)
theorem FitsRow.subnVxVy (x y : Nibble) :
    FitsRow.Statement (.subnVxVy x y) :=
  fitsRow_of (by simp [Instr.row, opcodeRows]) (packXy_fits _ _ _ _)
theorem FitsRow.shlVx (x : Nibble) :
    FitsRow.Statement (.shlVx x) :=
  fitsRow_of (by simp [Instr.row, opcodeRows]) (packXy_fits _ _ _ _)
theorem FitsRow.sneVxVy (x y : Nibble) :
    FitsRow.Statement (.sneVxVy x y) :=
  fitsRow_of (by simp [Instr.row, opcodeRows]) (packXy_fits _ _ _ _)
theorem FitsRow.ldINnn (nnn : Addr12) :
    FitsRow.Statement (.ldINnn nnn) :=
  fitsRow_of (by simp [Instr.row, opcodeRows]) (packNnn_fits _ _)
theorem FitsRow.jpV0Nnn (nnn : Addr12) :
    FitsRow.Statement (.jpV0Nnn nnn) :=
  fitsRow_of (by simp [Instr.row, opcodeRows]) (packNnn_fits _ _)
theorem FitsRow.rndVxKk (x : Nibble) (kk : Byte) :
    FitsRow.Statement (.rndVxKk x kk) :=
  fitsRow_of (by simp [Instr.row, opcodeRows]) (packXkk_fits _ _ _)
theorem FitsRow.drwVxVyN (x y n : Nibble) :
    FitsRow.Statement (.drwVxVyN x y n) :=
  fitsRow_of (by simp [Instr.row, opcodeRows]) (packXyn_fits _ _ _ _)
theorem FitsRow.skpVx (x : Nibble) :
    FitsRow.Statement (.skpVx x) :=
  fitsRow_of (by simp [Instr.row, opcodeRows]) (packX_fits _ _ _)
theorem FitsRow.sknpVx (x : Nibble) :
    FitsRow.Statement (.sknpVx x) :=
  fitsRow_of (by simp [Instr.row, opcodeRows]) (packX_fits _ _ _)
theorem FitsRow.ldVxDt (x : Nibble) :
    FitsRow.Statement (.ldVxDt x) :=
  fitsRow_of (by simp [Instr.row, opcodeRows]) (packX_fits _ _ _)
theorem FitsRow.ldVxK (x : Nibble) :
    FitsRow.Statement (.ldVxK x) :=
  fitsRow_of (by simp [Instr.row, opcodeRows]) (packX_fits _ _ _)
theorem FitsRow.ldDtVx (x : Nibble) :
    FitsRow.Statement (.ldDtVx x) :=
  fitsRow_of (by simp [Instr.row, opcodeRows]) (packX_fits _ _ _)
theorem FitsRow.ldStVx (x : Nibble) :
    FitsRow.Statement (.ldStVx x) :=
  fitsRow_of (by simp [Instr.row, opcodeRows]) (packX_fits _ _ _)
theorem FitsRow.addIVx (x : Nibble) :
    FitsRow.Statement (.addIVx x) :=
  fitsRow_of (by simp [Instr.row, opcodeRows]) (packX_fits _ _ _)
theorem FitsRow.ldFVx (x : Nibble) :
    FitsRow.Statement (.ldFVx x) :=
  fitsRow_of (by simp [Instr.row, opcodeRows]) (packX_fits _ _ _)
theorem FitsRow.ldBVx (x : Nibble) :
    FitsRow.Statement (.ldBVx x) :=
  fitsRow_of (by simp [Instr.row, opcodeRows]) (packX_fits _ _ _)
theorem FitsRow.ldMemVx (x : Nibble) :
    FitsRow.Statement (.ldMemVx x) :=
  fitsRow_of (by simp [Instr.row, opcodeRows]) (packX_fits _ _ _)
theorem FitsRow.ldVxMem (x : Nibble) :
    FitsRow.Statement (.ldVxMem x) :=
  fitsRow_of (by simp [Instr.row, opcodeRows]) (packX_fits _ _ _)

end Sys2Proof.Laws
end

