-- ==== Sys2Proof/Laws/Step.lean ====
section
/-!
SUPPORT. What one enabled step can do, said once: a failed fetch, an unrecognized word, or the decoded
instruction; and that an instruction always answers a next state.
-/

namespace Sys2Proof.Machine

/-- The three ways of an enabled step. -/
theorem stepWith_cases {policy : Bool} {s : State} (h : s.Enabled policy) :
    (0xFFF ≤ s.pc.toNat ∧ stepWith policy s = raiseFetch s (max s.pc.toNat 0x1000)) ∨
    (s.pc.toNat < 0xFFF ∧ (∃ e, decodeWord s.fetchedWord = .error e) ∧
      stepWith policy s = raiseUnrecognized s s.fetchedWord) ∨
    (s.pc.toNat < 0xFFF ∧ ∃ i, decodeWord s.fetchedWord = .ok i ∧ stepWith policy s = exec i s) := by
  unfold stepWith
  rw [stepDisabled_eq_none.mpr h]
  rcases Nat.lt_or_ge s.pc.toNat 0xFFF with hp | hp
  · rw [fetchWord_ok hp]
    simp only
    cases hd : decodeWord s.fetchedWord with
    | error e => exact .inr (.inl (by simp [hp]))
    | ok i => exact .inr (.inr (by simp [hp]))
  · rw [fetchWord_error hp]
    exact .inl (by simp [hp])

/-- A step answers a next state only where it is enabled. -/
theorem enabled_of_stepWith_next {policy : Bool} {s t : State} (h : stepWith policy s = .next t) :
    s.Enabled policy := by
  unfold stepWith at h
  split at h
  · cases h
  · exact stepDisabled_eq_none.mp ‹_›

/-- Every instruction answers a next state, a recorded fault among them. -/
theorem exec_answers_next (i : Instr) (s : State) : ∃ t, exec i s = .next t := by
  rcases exec_inversion i s with ⟨t, h, -⟩ | ⟨k, n, h⟩
  · exact ⟨t, h⟩
  · exact ⟨_, h⟩

end Sys2Proof.Machine
end

