-- ==== Sys2Proof/Tests/Slice0.lean ====
section
/-!
SUPPORT. Tests with their expected results taken from the spec (95_test_vectors.md, by the number of
its section, and the encodings of 30_encoding.md), and the witnesses that the statements' hypotheses can
be met. Each test runs at most one step.
-/

open Sys2Proof Sys2Proof.Machine

namespace Sys2Proof.Tests

/-- What a field of the next state is, if there is one. -/
def after {α : Type} (r : Result) (f : State → α) : Option α :=
  match r with
  | .next t => some (f t)
  | _ => none

/-- One step from a state with the word `w` at its `pc`. -/
def run (w : Nat) (s : State) : Result := step (s.withFetchWord 16 w)

/-- The reset state with registers set. -/
def withV (l : List (Nibble × Byte)) : State := l.foldl (fun s p => s.setV p.1 p.2) State.reset

/-- A state with bytes stored. -/
def poke (s : State) (a : Nat) (l : List Byte) : State := { s with mem := s.mem.storeBytes a l }

/-- The lit cells of the rows `rs`, as (column, row). -/
def litIn (rs : List (Fin 32)) (g : Grid) : List (Fin 64 × Fin 32) :=
  rs.flatMap fun r => ((List.finRange 64).filter fun c => Grid.cell g c r).map fun c => (c, r)

/-- A sixteen-entry stack of one address. -/
def fullOf (a : Word) : Vector Word 16 := Vector.replicate 16 a

/-- The recorded fault, with its code in its kind's place. -/
structure Record where
  code : Nat
  pc : Word
  opcode : Option Word
  info : Nat
  deriving DecidableEq, Repr

/-- The recorded fault's code, `pc`, word and info. -/
def record (s : State) : Option Record := s.fault.map fun r => ⟨r.code, r.pc, r.opcode, r.info⟩

/-! ### WellFormed: each row refuses a word that breaks its fixed bits (R96 to R101) -/

/-- One word per row of the opcode map, in the table's order, each with one fixed bit wrong. -/
def illFormed : List Word :=
  [0x00E1, 0x01EE, 0x9ABC, 0x0ABC, 0xB123, 0x0123, 0x5121, 0xE123, 0xF123] ++
  [0x8128, 0x8129, 0x812A, 0x812B, 0x812C, 0x812D, 0x8116 ^^^ 0x0008, 0x8127 ^^^ 0x0008, 0x812E ^^^ 0x0001] ++
  [0x9121, 0xB123 ^^^ 0x4000, 0xA123 ^^^ 0x2000, 0xD123, 0xC123] ++
  [0xE19F, 0xE1A0, 0xF117, 0xF10B, 0xF114, 0xF119, 0xF11F, 0xF12B, 0xF132, 0xF154, 0xF145]

theorem test_each_row_refuses_a_broken_word :
    (opcodeRows.zip illFormed).all (fun p => !p.1.fits p.2) = true ∧ illFormed.length = 34 := by decide

/-! ### Decoding: every constructor, by its word written out from R92 and R96 -/

theorem test_decode_cls : decodeWord 0b0000_0000_1110_0000 = .ok .cls := by decide
theorem test_decode_ret : decodeWord 0b0000_0000_1110_1110 = .ok .ret := by decide
theorem test_decode_jp : decodeWord 0b0001_1010_1011_1100 = .ok (.jpNnn 0xABC) := by decide
theorem test_decode_call : decodeWord 0b0010_0011_0000_0001 = .ok (.callNnn 0x301) := by decide
theorem test_decode_se_kk : decodeWord 0b0011_0001_0000_0101 = .ok (.seVxKk 1 0x05) := by decide
theorem test_decode_sne_kk : decodeWord 0b0100_1110_1111_0000 = .ok (.sneVxKk 0xE 0xF0) := by decide
theorem test_decode_se : decodeWord 0b0101_0001_0010_0000 = .ok (.seVxVy 1 2) := by decide
theorem test_decode_ld_kk : decodeWord 0b0110_1010_0111_1111 = .ok (.ldVxKk 0xA 0x7F) := by decide
theorem test_decode_add_kk : decodeWord 0b0111_0001_1111_1111 = .ok (.addVxKk 1 0xFF) := by decide
theorem test_decode_ld : decodeWord 0b1000_0001_0010_0000 = .ok (.ldVxVy 1 2) := by decide
theorem test_decode_or : decodeWord 0b1000_0001_0010_0001 = .ok (.orVxVy 1 2) := by decide
theorem test_decode_and : decodeWord 0b1000_0001_0010_0010 = .ok (.andVxVy 1 2) := by decide
theorem test_decode_xor : decodeWord 0b1000_0001_0010_0011 = .ok (.xorVxVy 1 2) := by decide
theorem test_decode_add : decodeWord 0b1000_0001_0010_0100 = .ok (.addVxVy 1 2) := by decide
theorem test_decode_sub : decodeWord 0b1000_0001_0010_0101 = .ok (.subVxVy 1 2) := by decide
theorem test_decode_shr : decodeWord 0b1000_0001_0010_0110 = .ok (.shrVx 1) := by decide
theorem test_decode_subn : decodeWord 0b1000_0001_0010_0111 = .ok (.subnVxVy 1 2) := by decide
theorem test_decode_shl : decodeWord 0b1000_0001_0010_1110 = .ok (.shlVx 1) := by decide
theorem test_decode_sne : decodeWord 0b1001_0001_0010_0000 = .ok (.sneVxVy 1 2) := by decide
theorem test_decode_ld_i : decodeWord 0b1010_0010_0000_0001 = .ok (.ldINnn 0x201) := by decide
theorem test_decode_jp_v0 : decodeWord 0b1011_1111_1111_1110 = .ok (.jpV0Nnn 0xFFE) := by decide
theorem test_decode_rnd : decodeWord 0b1100_0011_0000_1111 = .ok (.rndVxKk 3 0x0F) := by decide
theorem test_decode_drw : decodeWord 0b1101_0001_0010_0101 = .ok (.drwVxVyN 1 2 5) := by decide
theorem test_decode_skp : decodeWord 0b1110_0010_1001_1110 = .ok (.skpVx 2) := by decide
theorem test_decode_sknp : decodeWord 0b1110_0010_1010_0001 = .ok (.sknpVx 2) := by decide
theorem test_decode_ld_from_dt : decodeWord 0b1111_0100_0000_0111 = .ok (.ldVxDt 4) := by decide
theorem test_decode_wait_key : decodeWord 0b1111_0011_0000_1010 = .ok (.ldVxK 3) := by decide
theorem test_decode_ld_dt : decodeWord 0b1111_0100_0001_0101 = .ok (.ldDtVx 4) := by decide
theorem test_decode_ld_st : decodeWord 0b1111_0100_0001_1000 = .ok (.ldStVx 4) := by decide
theorem test_decode_add_i : decodeWord 0b1111_0001_0001_1110 = .ok (.addIVx 1) := by decide
theorem test_decode_ld_f : decodeWord 0b1111_0001_0010_1001 = .ok (.ldFVx 1) := by decide
theorem test_decode_ld_b : decodeWord 0b1111_0000_0011_0011 = .ok (.ldBVx 0) := by decide
theorem test_decode_dump : decodeWord 0b1111_0010_0101_0101 = .ok (.ldMemVx 2) := by decide
theorem test_decode_load : decodeWord 0b1111_0010_0110_0101 = .ok (.ldVxMem 2) := by decide

/-- V1: the words that are no instruction. -/
theorem test_decode_rejects :
    ([0x0000, 0x0123, 0x00E1, 0x00FF, 0x5001, 0x8008, 0x800F, 0x9001] ++
     [0xE09F, 0xE0A0, 0xF000, 0xF01F, 0xF0FF] : List Word).all
      (fun w => decodeWord w == .error (.unrecognized w)) = true := by decide

theorem test_decode_bytes_in_order : decodeBytes [0xA2, 0x00, 0xD0] = .ok (.ldINnn 0x200, [0xD0]) := by
  decide
theorem test_decode_truncated : decodeBytes [0xA2] = .error .truncated := by decide
theorem test_decode_table_word : decodeTableWord 16 0xA200 = some (.ldINnn 0x200) := by decide

/-! ### The step (V2) -/

theorem test_fetch_at_the_top :
    after (step { State.reset with pc := 0xFFE }) record = some (some ⟨1, 0xFFE, some 0x0000, 0⟩) := by decide
theorem test_fetch_second_byte :
    after (step { State.reset with pc := 0xFFF }) record = some (some ⟨5, 0xFFF, none, 0x1000⟩) := by decide
theorem test_fetch_first_byte :
    after (step { State.reset with pc := 0x10FE }) record = some (some ⟨5, 0x10FE, none, 0x10FE⟩) := by decide
theorem test_step_at_odd_counter :
    after (run 0x6123 { State.reset with pc := 0x201 }) (fun t => (t.v 1, t.pc)) = some (0x23, 0x203) := by
  decide
/-- V9: an empty image faults on the zero word. -/
theorem test_first_step_after_reset :
    after (step State.reset) record = some (some ⟨1, 0x200, some 0x0000, 0⟩) := by decide
/-- V7: the step is not enabled on a faulted core, nor (under the blocking policy) while awaiting. -/
theorem test_step_not_enabled :
    stepDisabled true { State.reset with fault := some ⟨.stackOverflow, 0, none, 16⟩ } =
      some (.halted ⟨.stackOverflow, 0, none, 16⟩) ∧
    stepDisabled false { State.reset with awaitingKey := true } = some .blockedAwaitingKey ∧
    stepDisabled true { State.reset with awaitingKey := true } = none := by decide

/-! ### Control flow (V3) -/

theorem test_jp : after (run 0x1ABC State.reset) State.pc = some 0xABC := by decide
theorem test_call :
    after (run 0x2300 { State.reset with pc := 0x204 }) (fun t => (t.stack[0], t.sp.val, t.pc)) =
      some (0x206, 1, 0x300) := by decide
theorem test_call_overflow :
    after (run 0x2200 { State.reset with sp := 16 }) (fun t => (record t, t.sp.val, t.pc)) =
      some (some ⟨3, 0x200, some 0x2200, 16⟩, 16, 0x200) := by decide
theorem test_ret :
    after (run 0x00EE { State.reset with sp := 1, stack := fullOf 0x206, pc := 0x212 })
      (fun t => (t.sp.val, t.pc, t.stack[0])) = some (0, 0x206, 0x206) := by decide
theorem test_ret_underflow :
    after (run 0x00EE State.reset) (fun t => (record t, t.pc)) =
      some (some ⟨4, 0x200, some 0x00EE, 0⟩, 0x200) := by decide
theorem test_se_kk_equal : after (run 0x3105 (withV [(1, 5)])) State.pc = some 0x204 := by decide
theorem test_se_kk_unequal : after (run 0x3105 (withV [(1, 6)])) State.pc = some 0x202 := by decide
theorem test_sne_kk_equal : after (run 0x4105 (withV [(1, 5)])) State.pc = some 0x202 := by decide
theorem test_sne_kk_unequal : after (run 0x4105 (withV [(1, 6)])) State.pc = some 0x204 := by decide
theorem test_se_equal : after (run 0x5120 (withV [(1, 7), (2, 7)])) State.pc = some 0x204 := by decide
theorem test_se_unequal : after (run 0x5120 (withV [(1, 7), (2, 8)])) State.pc = some 0x202 := by decide
theorem test_sne_equal : after (run 0x9120 (withV [(1, 7), (2, 7)])) State.pc = some 0x202 := by decide
theorem test_sne_unequal : after (run 0x9120 (withV [(1, 7), (2, 8)])) State.pc = some 0x204 := by decide
theorem test_jp_v0_leaves_memory :
    after (run 0xBFFF (withV [(0, 0xFF)])) (fun t => (t.pc, t.fault)) = some (0x10FE, none) := by decide

/-! ### ALU (V4) -/

/-- V1 (or VF, where X = F) and VF after one word. -/
def alu (w : Nat) (l : List (Nibble × Byte)) : Option (Byte × Byte) :=
  after (run w (withV l)) fun t => (t.v 1, t.v 0xF)

theorem test_ld_kk_to_vf : alu 0x6FAA [] = some (0, 0xAA) := by decide
theorem test_add_kk_wraps : alu 0x71FF [(1, 2), (0xF, 0x55)] = some (1, 0x55) := by decide
theorem test_ld : alu 0x8120 [(2, 0x42), (0xF, 0x55)] = some (0x42, 0x55) := by decide
theorem test_or : alu 0x8121 [(1, 0xF0), (2, 0x0F), (0xF, 0x55)] = some (0xFF, 0x55) := by decide
theorem test_and : alu 0x8122 [(1, 0xF0), (2, 0x3C), (0xF, 0x55)] = some (0x30, 0x55) := by decide
theorem test_xor : alu 0x8123 [(1, 0xFF), (2, 0x0F), (0xF, 0x55)] = some (0xF0, 0x55) := by decide
theorem test_add_carry : alu 0x8124 [(1, 0xFF), (2, 1)] = some (0, 1) := by decide
theorem test_add_to_vf : alu 0x8F24 [(0xF, 0xFF), (2, 2)] = some (0, 1) := by decide
theorem test_sub_equal : alu 0x8115 [(1, 7), (0xF, 0x55)] = some (0, 0) := by decide
theorem test_sub_to_vf : alu 0x8F25 [(0xF, 5), (2, 3)] = some (0, 2) := by decide
theorem test_shr : alu 0x8126 [(1, 1), (2, 0x77)] = some (0, 1) := by decide
theorem test_shr_of_vf : alu 0x8F06 [(0xF, 3)] = some (0, 1) := by decide
theorem test_subn_negative : alu 0x8127 [(1, 5), (2, 3)] = some (0xFE, 1) := by decide
theorem test_subn_equal : alu 0x8127 [(1, 5), (2, 5), (0xF, 0x55)] = some (0, 0) := by decide
theorem test_shl : alu 0x812E [(1, 0x81), (2, 0x77)] = some (2, 1) := by decide
theorem test_shl_of_vf : alu 0x8F0E [(0xF, 0x80)] = some (0, 0) := by decide
/-- V4: KK = 0 masks whatever is drawn. -/
theorem test_rnd_masked : after (exec (.rndVxKk 3 0) (withV [(3, 7)])) (fun t => t.v 3) = some 0 := by
  show some (Config.randByte 0 &&& 0) = some 0
  simp
/-- V4: rand = AB and KK = 0F give 0B; the model's draw is `Config.randByte draws`. -/
theorem test_rnd_takes_the_draw :
    after (exec (.rndVxKk 3 0x0F) State.reset) (fun t => (t.v 3, t.draws)) =
      some (Config.randByte 0 &&& 0x0F, 1) ∧ (0xAB : Byte) &&& 0x0F = 0x0B := ⟨rfl, by decide⟩

/-! ### Display (V5) -/

/-- The reset state with sprite bytes at 0x300, I there and registers set. -/
def sprite (l : List (Nibble × Byte)) (bytes : List Byte) : State :=
  { poke (withV l) 0x300 bytes with i := 0x300 }

theorem test_cls :
    after (run 0x00E0 { State.reset with disp := Grid.setCell Grid.unlit 3 2 true })
      (fun t => (Grid.cell t.disp 3 2, t.drawPending, t.pc)) = some (false, true, 0x202) := by decide
/-- V1 = 60, V2 = 31: both edges wrap. -/
theorem test_drw_wraps :
    after (exec (.drwVxVyN 1 2 2) (sprite [(1, 60), (2, 31)] [0xFF, 0x81]))
      (fun t => (litIn [0, 31] t.disp, t.v 0xF)) =
    some ([(60, 0), (3, 0)].reverse ++
      [(0, 31), (1, 31), (2, 31), (3, 31), (60, 31), (61, 31), (62, 31), (63, 31)], 0) := by decide
/-- A lit cell is inverted and noted. -/
theorem test_drw_collision :
    after (exec (.drwVxVyN 0 1 1)
      { sprite [] [0x80] with disp := Grid.setCell Grid.unlit 0 0 true })
      (fun t => (Grid.cell t.disp 0 0, t.v 0xF, t.drawPending)) = some (false, 1, true) := by decide
theorem test_drw_out_of_bounds :
    after (run 0xD00F { State.reset with i := 0xFFF }) (fun t => (record t, t.drawPending)) =
      some (some ⟨5, 0x200, some 0xD00F, 0x1000⟩, false) := by decide
theorem test_drw_of_no_rows :
    after (run 0xD000 { withV [(0xF, 1)] with i := 0xFFFF })
      (fun t => (t.v 0xF, t.drawPending, t.fault)) = some (0, true, none) := by decide

/-! ### Keys and timers (V6) -/

theorem test_skp_down :
    after (run 0xE19E { withV [(1, 5)] with keys := (Vector.replicate 16 false).set 5 true })
      State.pc = some 0x204 := by decide
theorem test_skp_no_such_key :
    after (run 0xE19E (withV [(1, 0x10)])) (fun t => (record t, t.pc)) =
      some (some ⟨6, 0x200, some 0xE19E, 0x10⟩, 0x200) := by decide
theorem test_sknp_down :
    after (run 0xE1A1 { withV [(1, 5)] with keys := (Vector.replicate 16 false).set 5 true })
      State.pc = some 0x202 := by decide
theorem test_sknp_up : after (run 0xE1A1 (withV [(1, 5)])) State.pc = some 0x204 := by decide
theorem test_ld_from_dt :
    after (run 0xF407 { State.reset with dt := 0x3C }) (fun t => (t.v 4, t.dt)) = some (0x3C, 0x3C) := by
  decide
theorem test_ld_dt : after (run 0xF415 (withV [(4, 0x3C)])) State.dt = some 0x3C := by decide
theorem test_ld_st : after (run 0xF418 (withV [(4, 2)])) State.st = some 2 := by decide
theorem test_wait_key :
    after (run 0xF30A (withV [(3, 9)])) (fun t => (t.awaitingKey, t.waitReg, t.pc, t.v 3)) =
      some (true, 3, 0x202, 9) := by decide

/-! ### Index and memory (V8) -/

theorem test_ld_i : after (run 0xAFFF State.reset) State.i = some 0xFFF := by decide
theorem test_add_i_flags_the_result :
    after (run 0xF11E { State.reset with i := 0x1000 }) (fun t => (t.i, t.v 0xF)) = some (0x1000, 1) := by
  decide
theorem test_add_i_wraps :
    after (run 0xF11E { withV [(1, 0x20), (0xF, 5)] with i := 0xFFF0 }) (fun t => (t.i, t.v 0xF)) =
      some (0x0010, 0) := by decide
theorem test_ld_f : after (run 0xF129 (withV [(1, 0xA)])) State.i = some 0x032 := by decide
theorem test_ld_f_not_masked : after (run 0xF129 (withV [(1, 0xFF)])) State.i = some 0x4FB := by decide
theorem test_bcd :
    after (run 0xF033 { withV [(0, 0xFE)] with i := 0x300 })
      (fun t => (t.mem.loadBytes 0x300 3, t.i)) = some ([2, 5, 4], 0x300) := by decide
theorem test_bcd_beyond_memory :
    after (run 0xF033 { withV [(0, 0xFE)] with i := 0x2000 }) record =
      some (some ⟨5, 0x200, some 0xF033, 0x2000⟩) := by decide
theorem test_dump :
    after (run 0xF255 { withV [(0, 1), (1, 2), (2, 3), (3, 4)] with i := 0x400 })
      (fun t => (t.mem.loadBytes 0x400 4, t.i)) = some ([1, 2, 3, 0], 0x403) := by decide
theorem test_dump_beyond_memory :
    after (run 0xFF55 { State.reset with i := 0xFF1 }) (fun t => (record t, t.i)) =
      some (some ⟨5, 0x200, some 0xFF55, 0x1000⟩, 0xFF1) := by decide
theorem test_load :
    after (run 0xF265 { poke State.reset 0x400 [1, 2, 3, 4] with i := 0x400 })
      (fun t => (t.v 0, t.v 1, t.v 2, t.v 3, t.i)) = some (1, 2, 3, 0, 0x400) := by decide
theorem test_load_beyond_memory :
    after (run 0xFF65 { State.reset with i := 0xFF1 }) record =
      some (some ⟨5, 0x200, some 0xFF65, 0x1000⟩) := by decide

/-! ### The host's operations (V7, V9) -/

theorem test_supply_key_while_awaiting :
    after (hostSupplyKey 0xB { State.reset with awaitingKey := true, waitReg := 3 })
      (fun t => (t.v 3, t.pendingKey, t.awaitingKey)) = some (0x0B, 0xB, false) := by decide
theorem test_supply_key_unasked :
    after (hostSupplyKey 4 State.reset) (fun t => (t.regs, t.pendingKey)) =
      some (State.reset.regs, 4) := by decide
theorem test_supply_key_refused : hostSupplyKey 0x10 State.reset = .refused (.keyValueOutOfRange 0x10) := rfl
theorem test_set_key :
    after (hostSetKey 5 true State.reset) (fun t => (t.keys[5], t.keys[4], t.awaitingKey)) =
      some (true, false, false) := by decide
theorem test_tick_timers :
    after (hostTickTimer .delay { State.reset with dt := 1 }) State.dt = some 0 ∧
    after (hostTickTimer .delay State.reset) State.dt = some 0 ∧
    after (hostTickTimer .sound { State.reset with st := 5 }) State.st = some 4 := by decide
theorem test_ack_render :
    after (hostAckRender { State.reset with drawPending := true }) State.drawPending = some false := by decide
/-- A faulted core in the middle of a run. -/
def midRun : State :=
  { withV [(1, 1)] with
    fault := some ⟨.stackOverflow, 0, none, 16⟩, disp := Grid.setCell Grid.unlit 0 0 true, dt := 9
    sp := 16, pc := 0x300 }
theorem test_load_writes :
    after (hostLoad [0x60, 0x05] (List.replicate 80 0) midRun)
      (fun t => (t.pc, t.v 1, t.sp.val)) = some (0x200, 0, 0) := by decide
theorem test_load_keeps_display_and_timers :
    after (hostLoad [0x60, 0x05] (List.replicate 80 0) midRun)
      (fun t => (t.fault, Grid.cell t.disp 0 0, t.dt)) = some (none, true, 9) := by decide
theorem test_load_refuses_a_long_image (s : State) (image font : List Byte) (hf : font.length = 80)
    (h : image.length = 3585) : hostLoad image font s = .refused (.imageTooLong 3585) := by
  simp [hostLoad, hf, h]

/-! ### Witnesses: the hypotheses of each statement can be met, each clause at a boundary value -/

/-- A word at the reset state's `pc`. -/
def at_ (w : Nat) (s : State) : State := s.withFetchWord 16 w

theorem witness_DecodingLosesOnlyTheIgnoredField :
    decodeWord 0x8126 = .ok (.shrVx 1) ∧ decodeWord 0x812E = .ok (.shlVx 1) ∧
    decodeWord 0x8127 = .ok (.subnVxVy 1 2) := by decide

theorem witness_UnrecognizedWordsAreExactlyTheListed :
    State.reset.Enabled false ∧ State.reset.pc.toNat < 0xFFF ∧ State.reset.fetchedWord = 0 ∧
    decodeWord 0 = .error (.unrecognized 0) := by decide

theorem witness_StepRunsTheDecodedInstruction :
    let s := at_ 0x6005 { State.reset with pc := 0xFFE }
    s.Enabled false ∧ s.pc.toNat < 0xFFF ∧
    (0x6005 : Word).toNat =
      (s.mem.read s.pc.toNat).toNat * 256 + (s.mem.read (s.pc.toNat + 1)).toNat ∧
    decodeWord 0x6005 = .ok (.ldVxKk 0 5) := by decide

theorem witness_FetchBeyondMemoryFaults :
    State.Enabled false { State.reset with pc := 0x1000 } ∧
    0x1000 ≤ ({ State.reset with pc := 0x1000 } : State).pc.toNat ∧
    State.Enabled true { State.reset with pc := 0xFFF, awaitingKey := true } ∧
    ({ State.reset with pc := 0xFFF } : State).pc.toNat = 0xFFF := by decide

theorem witness_StepCompletesExactlyWhenEnabled :
    (∃ s : State, s.fault = some ⟨.stackOverflow, 0, none, 16⟩) ∧
    ∃ s : State, s.fault = none ∧ s.awaitingKey = true :=
  ⟨⟨{ State.reset with fault := some ⟨.stackOverflow, 0, none, 16⟩ }, rfl⟩,
   ⟨{ State.reset with awaitingKey := true }, rfl, rfl⟩⟩

theorem witness_FaultsArePrecise :
    ∃ t, State.reset.Enabled false ∧ stepWith false State.reset = .next t ∧ t.fault ≠ none :=
  ⟨_, by decide, rfl, by decide⟩

/-- An unrecognized word, and a failed fetch. -/
theorem witness_FaultRecordHoldsTheFetchedWord :
    (∃ t r, State.reset.Enabled false ∧ stepWith false State.reset = .next t ∧ t.fault = some r ∧
      State.reset.pc.toNat < 0xFFF ∧ r.kind = .unrecognizedInstruction) ∧
    ∃ t r, stepWith false { State.reset with pc := 0xFFF } = .next t ∧ t.fault = some r ∧
      0xFFF ≤ ({ State.reset with pc := 0xFFF } : State).pc.toNat :=
  ⟨⟨_, _, by decide, rfl, rfl, by decide, rfl⟩, ⟨_, _, rfl, rfl, by decide⟩⟩

/-- One state for each kind that a step records. -/
theorem witness_EveryFaultHasItsListedCause :
    ([(State.reset, 1), (at_ 0x2300 { State.reset with sp := 16 }, 3), (at_ 0x00EE State.reset, 4)] ++
     [({ State.reset with pc := 0x1000 }, 5), (at_ 0xF033 { State.reset with i := 0xFFE }, 5)] ++
     [(at_ 0xE09E (withV [(0, 0x10)]), 6)] : List (State × Nat)).all
      (fun p => decide (p.1.Enabled false) &&
        (after (stepWith false p.1) fun t => t.fault.map FaultRecord.code) == some (some p.2)) = true := by
  decide

/-- A state at the invariant's bounds, with one byte of memory written. -/
def atTheBounds : State :=
  { State.reset with pc := 0x10FE, stack := fullOf 0x1000, sp := 16, mem := [(0xFFF, 1)] }
theorem test_atTheBounds_inv : atTheBounds.Inv := ⟨by decide, by decide, by decide⟩

theorem witness_EveryStepKeepsTheInvariant :
    ∃ t, atTheBounds.Inv ∧ stepWith false atTheBounds = .next t := ⟨_, test_atTheBounds_inv, rfl⟩

theorem witness_EveryRunKeepsTheInvariant :
    ∃ t, atTheBounds.Inv ∧
      performAll false [.setKey 3 true, .step, .ackRender] atTheBounds = .next t :=
  ⟨_, test_atTheBounds_inv, rfl⟩

theorem witness_OnlyRndReadsTheDraw :
    ∃ t, (∀ x kk, decodeWord State.reset.fetchedWord ≠ .ok (.rndVxKk x kk)) ∧
      stepWith false State.reset = .next t := by
  refine ⟨_, fun x kk h => ?_, rfl⟩
  have h0 : decodeWord State.reset.fetchedWord = .error (.unrecognized 0) := by decide
  rw [h0] at h
  cases h

theorem witness_ProgramsCannotObserveHostFields :
    ∃ t, exec (.ldVxDt 4) { State.reset with dt := 0x3C } = .next t := ⟨_, rfl⟩

/-- An immediate load, a copy, a shift, the last loaded register, and a flag. -/
theorem witness_OnlyTheListedRegistersChange :
    (∃ t, exec (.ldVxKk 2 5) State.reset = .next t ∧ t.v 2 ≠ State.reset.v 2) ∧
    (∃ t, exec (.ldVxVy 2 1) (withV [(1, 5)]) = .next t ∧ t.v 2 ≠ (withV [(1, 5)]).v 2) ∧
    (∃ t, exec (.shrVx 2) (withV [(2, 5)]) = .next t ∧ t.v 2 ≠ (withV [(2, 5)]).v 2) ∧
    (∃ t, exec (.ldVxMem 2) { poke State.reset 0x400 [1, 2, 3] with i := 0x400 } = .next t ∧
      t.v 2 ≠ State.reset.v 2) ∧
    ∃ t, exec (.addVxVy 1 2) (withV [(1, 0xFF), (2, 1)]) = .next t ∧
      t.v 0xF ≠ (withV [(1, 0xFF), (2, 1)]).v 0xF :=
  ⟨⟨_, rfl, by decide⟩, ⟨_, rfl, by decide⟩, ⟨_, rfl, by decide⟩, ⟨_, rfl, by decide⟩,
   ⟨_, rfl, by decide⟩⟩

theorem witness_SpecialRegistersHaveTheirListedWriters :
    (∃ t, exec (.ldINnn 0x300) State.reset = .next t ∧ t.i ≠ State.reset.i) ∧
    (∃ t, exec (.callNnn 0x300) State.reset = .next t ∧ t.stack ≠ State.reset.stack ∧
      t.sp ≠ State.reset.sp) ∧
    (∃ t, exec (.ldDtVx 1) (withV [(1, 5)]) = .next t ∧ t.dt ≠ (withV [(1, 5)]).dt) ∧
    (∃ t, exec (.ldStVx 1) (withV [(1, 5)]) = .next t ∧ t.st ≠ (withV [(1, 5)]).st) ∧
    ∃ t, exec (.ldBVx 1) { withV [(1, 5)] with i := 0x300 } = .next t ∧ t.mem ≠ State.reset.mem :=
  ⟨⟨_, rfl, by decide⟩, ⟨_, rfl, by decide, by decide⟩, ⟨_, rfl, by decide⟩, ⟨_, rfl, by decide⟩,
   ⟨_, rfl, by decide⟩⟩

/-- A CLS on a lit display with draw_pending clear, and a DRW that faults with it set. -/
theorem witness_DisplayHasTwoWriters :
    (∃ t, exec .cls { State.reset with disp := Grid.setCell Grid.unlit 3 2 true } = .next t ∧
      Grid.cell t.disp 3 2 ≠ Grid.cell (Grid.setCell Grid.unlit 3 2 true) 3 2 ∧
      t.drawPending ≠ State.reset.drawPending) ∧
    ∃ t, exec (.drwVxVyN 0 0 2) { State.reset with i := 0xFFF, drawPending := true } = .next t ∧
      t.fault ≠ none ∧ t.drawPending = true :=
  ⟨⟨_, rfl, by decide, by decide⟩, ⟨_, rfl, by decide, by decide⟩⟩

theorem witness_InputStateIsTheHosts :
    ∃ t, exec (.ldVxK 3) State.reset = .next t ∧
      (t.awaitingKey ≠ State.reset.awaitingKey ∨ t.waitReg ≠ State.reset.waitReg) :=
  ⟨_, rfl, by decide⟩

theorem witness_ReturnPopsTheStack :
    0 < ({ State.reset with sp := 16 } : State).sp.val ∧ 0 < ({ State.reset with sp := 1 } : State).sp.val ∧
    State.reset.sp.val = 0 := by decide

theorem witness_CallPushesTheReturnAddress :
    ({ State.reset with sp := 15 } : State).sp.val < 16 ∧
    ({ State.reset with sp := 16 } : State).sp.val = 16 := by decide

theorem witness_CallThenReturnComesBack :
    ∃ s t u : State, exec (.callNnn 0x300) s = .next t ∧ s.sp.val < 16 ∧ u.stack = t.stack ∧ u.sp = t.sp ∧
      u.pc ≠ t.pc :=
  ⟨{ State.reset with sp := 15 }, _,
    { State.reset with stack := (Vector.replicate 16 0).set 15 0x202, sp := 16, pc := 0x340 },
    rfl, by decide, rfl, rfl, by decide⟩

/-- The last address with a first byte only, and a jump to itself; the steps after them are enabled. -/
theorem witness_JumpGoesToItsAddress :
    ∃ nnn : Addr12, nnn = 0xFFF ∧ (0x200 : Addr12).toNat = State.reset.pc.toNat ∧
      State.Enabled false { State.reset with pc := nnn.zeroExtend 16 } := ⟨0xFFF, rfl, by decide⟩
/-- The lowest and the highest target that faults at the next fetch. -/
theorem witness_JumpWithOffsetAddsRegisterZero :
    (∃ t, exec (.jpV0Nnn 0xFFF) State.reset = .next t ∧ 0xFFF ≤ t.pc.toNat ∧ t.Enabled false) ∧
    ∃ t, exec (.jpV0Nnn 0xFFF) (withV [(0, 0xFF)]) = .next t ∧ 0xFFF ≤ t.pc.toNat ∧
      t.Enabled true :=
  ⟨⟨_, rfl, by decide, by decide⟩, ⟨_, rfl, by decide, by decide⟩⟩
theorem witness_WaitForKeyThenSupply : State.reset.fault = none := rfl
theorem witness_CopyAndLogicWriteOneRegister : (0xF : Nibble) ≠ 0x0 ∧ (0x0 : Nibble) ≠ 0xF := by decide
theorem witness_ImmediateFormsWriteOneRegister : (0x0 : Nibble) ≠ 0xF ∧ (0xF : Nibble) ≠ 0x0 := by
  decide
theorem witness_AddToIndexFlagsTheNewIndex : (0x0 : Nibble) ≠ 0xF ∧ (0xE : Nibble) ≠ 0xF := by decide

/-- A destination other than VF, at both ends of the register numbers, and a register that is neither. -/
theorem witness_AddWritesSumThenCarry :
    (0x0 : Nibble) ≠ 0xF ∧ (0xE : Nibble) ≠ 0xF ∧ (0x1 : Nibble) ≠ 0xE ∧ (0x1 : Nibble) ≠ 0xF := by decide
theorem witness_SubtractWritesNoBorrowThenDifference :
    (0xE : Nibble) ≠ 0xF ∧ (0x1 : Nibble) ≠ 0xE ∧ (0x1 : Nibble) ≠ 0xF := by decide
theorem witness_ReverseSubtractWritesSignThenDifference :
    (0x0 : Nibble) ≠ 0xF ∧ (0xE : Nibble) ≠ 0x0 ∧ (0xE : Nibble) ≠ 0xF := by decide
theorem witness_SubtractionsAgreeOnTheFlag : (0xE : Nibble) ≠ 0xF ∧ (0x0 : Nibble) ≠ 0xF := by decide
theorem witness_ShiftRightMovesBitZeroIntoTheFlag :
    (0xE : Nibble) ≠ 0xF ∧ (0x0 : Nibble) ≠ 0xE ∧ (0x0 : Nibble) ≠ 0xF := by decide
theorem witness_ShiftLeftMovesBitSevenIntoTheFlag :
    (0x0 : Nibble) ≠ 0xF ∧ (0xE : Nibble) ≠ 0x0 ∧ (0xE : Nibble) ≠ 0xF := by decide
theorem witness_RandomMasksAFreshDraw : ∃ kk : Byte, kk = 0 ∧ (0x1 : Nibble) ≠ 0x2 := ⟨0, rfl, by decide⟩

/-- No rows, and a sprite whose last byte is the memory's last; a covered cell and one that is not. -/
theorem witness_DrawInvertsTheCoveredCells :
    (0x0 : Nibble).toNat = 0 ∧
    ({ State.reset with i := 0xFF1 } : State).i.toNat + (0xF : Nibble).toNat ≤ 0x1000 ∧
    (sprite [] [0x80]).SpriteCovers 63 31 1 63 31 ∧ ¬ (sprite [] [0x80]).SpriteCovers 63 31 1 0 31 := by
  refine ⟨by decide, by decide, ⟨0, by decide, 0, by decide, by decide⟩, ?_⟩
  unfold State.SpriteCovers
  decide

/-- The drawn state is a second DRW's start: its I, registers 0 and 1, memory and display fit. -/
theorem witness_DrawingTwiceRestoresTheDisplay :
    ∃ t, (sprite [] [0x80]).i.toNat + (0x1 : Nibble).toNat ≤ 0x1000 ∧
      exec (.drwVxVyN 0 1 1) (sprite [] [0x80]) = .next t ∧ t.i = (sprite [] [0x80]).i ∧
      t.mem = (sprite [] [0x80]).mem ∧ t.v 0 = (sprite [] [0x80]).v 0 ∧
      t.v 1 = (sprite [] [0x80]).v 1 ∧ Grid.cell t.disp 0 0 = true :=
  ⟨_, by decide, rfl, rfl, rfl, by decide, by decide, by decide⟩

theorem witness_KeySkipsReadTheNamedKey :
    ((withV [(1, 0xF)]).v 1).toNat < 16 ∧ 16 ≤ ((withV [(1, 0x10)]).v 1).toNat := by decide

theorem witness_BcdStoresThreeDigits :
    ({ State.reset with i := 0xFFD } : State).i.toNat + 2 < 0x1000 ∧
    0x1000 ≤ ({ State.reset with i := 0xFFE } : State).i.toNat + 2 := by decide
theorem witness_DumpStoresRegistersAndMovesIndex :
    ({ State.reset with i := 0xFF0 } : State).i.toNat + (0xF : Nibble).toNat < 0x1000 ∧
    0x1000 ≤ ({ State.reset with i := 0xFF1 } : State).i.toNat + (0xF : Nibble).toNat := by decide
theorem witness_LoadFillsRegistersAndKeepsIndex :
    ({ State.reset with i := 0xFFF } : State).i.toNat + (0x0 : Nibble).toNat < 0x1000 ∧
    0x1000 ≤ ({ State.reset with i := 0x1000 } : State).i.toNat + (0x0 : Nibble).toNat := by decide

/-- Each instruction that accesses memory, one byte too far. -/
theorem witness_AccessBeyondMemoryFaultsBeforeAnyWrite :
    (TouchesFromI (.drwVxVyN 0 1 2) 2 ∧ 0x1000 < ({ State.reset with i := 0xFFF } : State).i.toNat + 2) ∧
    (TouchesFromI (.ldBVx 0) 3 ∧ 0x1000 < ({ State.reset with i := 0xFFE } : State).i.toNat + 3) ∧
    (TouchesFromI (.ldMemVx 0xF) 16 ∧ 0x1000 < ({ State.reset with i := 0xFF1 } : State).i.toNat + 16) ∧
    (TouchesFromI (.ldVxMem 0) 1 ∧ 0x1000 < ({ State.reset with i := 0x1000 } : State).i.toNat + 1) :=
  ⟨⟨.drw 0 1 2, by decide⟩, ⟨.bcd 0, by decide⟩, ⟨.dump 0xF, by decide⟩, ⟨.load 0, by decide⟩⟩

theorem witness_DumpThenLoadGivesRegistersBack :
    ∃ s t u : State, s.i.toNat + (0xF : Nibble).toNat < 0x1000 ∧ exec (.ldMemVx 0xF) s = .next t ∧ u.i = s.i ∧
      u.mem = t.mem ∧ u.regs ≠ s.regs :=
  ⟨{ withV [(0, 1), (0xF, 2)] with i := 0xFF0 }, _, { poke State.reset 0xFF0 [1] with
    i := 0xFF0, mem := [(0xFF0, 1), (0xFFF, 2)] }, by decide, rfl, rfl, by decide, by decide⟩

/-- The registers 62 and 35 hold an instruction; I is at its bounds. -/
theorem witness_StoredBytesAreFetchedBigEndian :
    (∃ t, State.reset.fault = none ∧ State.reset.awaitingKey = false ∧ 1 ≤ (1 : Nibble).toNat ∧
      ({ withV [(0, 0x62), (1, 0x35)] with i := 0xFFE } : State).i.toNat + (1 : Nibble).toNat < 0x1000 ∧
      exec (.ldMemVx 1) { withV [(0, 0x62), (1, 0x35)] with i := 0xFFE } = .next t ∧
      decodeWord (BitVec.ofNat 16 (0x62 * 256 + 0x35)) = .ok (.ldVxKk 2 0x35)) ∧
    ∃ t, ({ State.reset with i := 0xFFD } : State).i.toNat + 2 < 0x1000 ∧
      exec (.ldBVx 0) { withV [(0, 0xFE)] with i := 0xFFD } = .next t :=
  ⟨⟨_, rfl, rfl, by decide, by decide, rfl, by decide⟩, ⟨_, by decide, rfl⟩⟩

theorem witness_LoadingAProgramWritesTheListedFields :
    (∃ font : List Byte, font.length ≠ 80) ∧ (∃ image : List Byte, 3584 < image.length) ∧
    ∃ font image : List Byte, font.length = 80 ∧ image.length = 3584 :=
  ⟨⟨List.replicate 79 0, by simp⟩, ⟨List.replicate 3585 0, by rw [List.length_replicate]; decide⟩,
   ⟨List.replicate 80 0, List.replicate 3584 0, List.length_replicate, List.length_replicate⟩⟩

theorem witness_ResetStateIsTheTabulatedOne :
    ∃ image : List Byte, image.length = 3584 := ⟨List.replicate 3584 0, List.length_replicate⟩

theorem witness_SupplyKeyEndsTheWait :
    (16 : Nat) ≤ 16 ∧ (15 : Nat) < 16 ∧
    ∃ s : State, s.awaitingKey = true ∧ s.waitReg = 0xF :=
  ⟨by decide, by decide, { State.reset with awaitingKey := true, waitReg := 0xF }, rfl, rfl⟩

theorem witness_HostOperationsWriteTheirOwnField : (16 : Nat) ≤ 16 ∧ (15 : Nat) < 16 := by decide

theorem witness_OnlyLoadingClearsAFault :
    ∃ (s t : State) (r : FaultRecord), (∀ image font, HostOp.load image font ∉ [HostOp.tickTimer .delay, .setKey 5 true, .ackRender]) ∧
      s.fault = some r ∧
      performAll false [.tickTimer .delay, .setKey 5 true, .ackRender] s = .next t :=
  ⟨{ State.reset with fault := some ⟨.stackOverflow, 0, none, 16⟩ }, _, _,
    fun _ _ => by simp, rfl, rfl⟩

/-- V3: the word 1200 at 0x200. -/
theorem witness_IdleStateNeverChanges :
    (at_ 0x1200 State.reset).Idle ∧ (at_ 0x1200 State.reset).Enabled false := by decide

/-- A key awaited on an unfaulted core. -/
def awaiting : State := { State.reset with awaitingKey := true, waitReg := 3, pc := 0x202 }

theorem witness_BlockedRunStaysBlocked :
    ∃ t, awaiting.Blocked false [.tickTimer .delay, .setKey 5 true, .ackRender] ∧
      awaiting.fault = none ∧
      (∀ image font, HostOp.load image font ∉
        [HostOp.tickTimer .delay, .setKey 5 true, .ackRender]) ∧
      performAll false [.tickTimer .delay, .setKey 5 true, .ackRender] awaiting = .next t :=
  ⟨_, ⟨rfl, rfl, fun _ => by simp⟩, rfl, fun _ _ => by simp, rfl⟩

/-- P7: the wait that the host's supply_key(0xB) will end is no end of the run; without it, it is. -/
theorem test_wait_ends_the_run_only_without_a_key :
    ¬ awaiting.Ended false [.supplyKey 0xB, .step] ∧ awaiting.Ended false [] := by
  refine ⟨?_, .inr (.inr ⟨rfl, rfl, fun _ => by simp⟩)⟩
  rintro (h | h | h)
  · exact h rfl
  · exact absurd h (by decide)
  · exact h.2.2 0xB (by simp)

end Sys2Proof.Tests
end

section
/-!
PROOFS. The state and who writes it (10_state.md): what an instruction may change, what it cannot
observe, and the reset state. `overlayFrame` is the frame of each instruction; `exec_frame` says
that an instruction keeps to it, and the statements about single fields read it off.
-/

namespace Sys2Proof.Machine

/-! ### The frame of an instruction, and what it does not observe -/

/-- `s` with the fields that an instruction may write taken from `t`: its own destinations, the
counter, and the fault record. -/
def overlayFrame (i : Instr) (s t : State) : State :=
  match i with
  | .cls => { s with pc := t.pc, fault := t.fault, disp := t.disp, drawPending := t.drawPending }
  | .ret => { s with pc := t.pc, fault := t.fault, sp := t.sp }
  | .callNnn _ => { s with pc := t.pc, fault := t.fault, stack := t.stack, sp := t.sp }
  | .jpNnn _ | .jpV0Nnn _ | .seVxKk _ _ | .sneVxKk _ _ | .seVxVy _ _ | .sneVxVy _ _ | .skpVx _
  | .sknpVx _ => { s with pc := t.pc, fault := t.fault }
  | .ldVxKk _ _ | .addVxKk _ _ | .ldVxVy _ _ | .orVxVy _ _ | .andVxVy _ _ | .xorVxVy _ _
  | .addVxVy _ _ | .subVxVy _ _ | .shrVx _ | .subnVxVy _ _ | .shlVx _ | .ldVxDt _ | .ldVxMem _ =>
    { s with pc := t.pc, fault := t.fault, regs := t.regs }
  | .rndVxKk _ _ => { s with pc := t.pc, fault := t.fault, regs := t.regs, draws := t.draws }
  | .drwVxVyN _ _ _ =>
    { s with pc := t.pc, fault := t.fault, regs := t.regs, disp := t.disp, drawPending := t.drawPending }
  | .ldVxK _ =>
    { s with pc := t.pc, fault := t.fault, awaitingKey := t.awaitingKey, waitReg := t.waitReg }
  | .ldDtVx _ => { s with pc := t.pc, fault := t.fault, dt := t.dt }
  | .ldStVx _ => { s with pc := t.pc, fault := t.fault, st := t.st }
  | .ldINnn _ | .ldFVx _ => { s with pc := t.pc, fault := t.fault, i := t.i }
  | .addIVx _ => { s with pc := t.pc, fault := t.fault, i := t.i, regs := t.regs }
  | .ldBVx _ => { s with pc := t.pc, fault := t.fault, mem := t.mem }
  | .ldMemVx _ => { s with pc := t.pc, fault := t.fault, mem := t.mem, i := t.i }

/-- An instruction has one next state. -/
theorem exec_next_unique {i : Instr} {s t u : State} (ht : exec i s = .next t)
    (hu : exec i s = .next u) : t = u :=
  Host.Outcome.next.inj (ht.symm.trans hu)

/-- `s` with the five fields that programs cannot observe taken from `u` (R43). -/
def State.withHostFields (s u : State) : State :=
  { s with
    st := u.st, drawPending := u.drawPending, awaitingKey := u.awaitingKey
    waitReg := u.waitReg, pendingKey := u.pendingKey }

/-- Two runs of an instruction, the second with any values in the five fields of R43: both take the
same side of its check; what the first leaves is within the frame, and the second differs from it in
the five fields at most. -/
theorem exec_frame_and_hostFields (i : Instr) (s u : State) :
    ∃ t t', exec i s = .next t ∧ exec i (s.withHostFields u) = .next t' ∧
      t = overlayFrame i s t ∧ t' = t.withHostFields t' := by
  cases i with
  | ret =>
    rcases Nat.eq_zero_or_pos s.sp.val with h | h
    · exact ⟨_, _, exec_ret_of_zero h, exec_ret_of_zero h, rfl, rfl⟩
    · exact ⟨_, _, exec_ret_of_pos h, exec_ret_of_pos (s := s.withHostFields u) h, rfl, rfl⟩
  | callNnn nnn =>
    rcases Nat.lt_or_ge s.sp.val 16 with h | h
    · exact ⟨_, _, exec_callNnn_of_lt nnn h,
        exec_callNnn_of_lt (s := s.withHostFields u) nnn h, rfl, rfl⟩
    · have hfull : s.sp.val = 16 := by omega
      exact ⟨_, _, exec_callNnn_of_full nnn hfull, exec_callNnn_of_full nnn hfull, rfl, rfl⟩
  | seVxKk x kk => exact ⟨_, _, exec_seVxKk x kk s, exec_seVxKk x kk _, rfl, rfl⟩
  | sneVxKk x kk => exact ⟨_, _, exec_sneVxKk x kk s, exec_sneVxKk x kk _, rfl, rfl⟩
  | seVxVy x y => exact ⟨_, _, exec_seVxVy x y s, exec_seVxVy x y _, rfl, rfl⟩
  | sneVxVy x y => exact ⟨_, _, exec_sneVxVy x y s, exec_sneVxVy x y _, rfl, rfl⟩
  | drwVxVyN x y n =>
    by_cases h : n.toNat = 0 ∨ s.i.toNat + n.toNat ≤ 0x1000
    · exact ⟨_, _, exec_drwVxVyN_of_inBounds x y n h, exec_drwVxVyN_of_inBounds x y n h, rfl, rfl⟩
    · have h0 : n.toNat ≠ 0 := by omega
      have hout : 0x1000 < s.i.toNat + n.toNat := by omega
      exact ⟨_, _, exec_drwVxVyN_of_outOfBounds x y n h0 hout,
        exec_drwVxVyN_of_outOfBounds x y n h0 hout, rfl, rfl⟩
  | skpVx x =>
    rcases Nat.lt_or_ge (s.v x).toNat 16 with h | h
    · exact ⟨_, _, exec_skpVx_of_lt x h, exec_skpVx_of_lt (s := s.withHostFields u) x h, rfl, rfl⟩
    · exact ⟨_, _, exec_skpVx_of_ge x h, exec_skpVx_of_ge x h, rfl, rfl⟩
  | sknpVx x =>
    rcases Nat.lt_or_ge (s.v x).toNat 16 with h | h
    · exact ⟨_, _, exec_sknpVx_of_lt x h, exec_sknpVx_of_lt (s := s.withHostFields u) x h, rfl, rfl⟩
    · exact ⟨_, _, exec_sknpVx_of_ge x h, exec_sknpVx_of_ge x h, rfl, rfl⟩
  | ldBVx x =>
    rcases Nat.lt_or_ge 0x1000 (s.i.toNat + 3) with h | h
    · exact ⟨_, _, exec_ldBVx_of_outOfBounds x h, exec_ldBVx_of_outOfBounds x h, rfl, rfl⟩
    · exact ⟨_, _, exec_ldBVx_of_inBounds x h, exec_ldBVx_of_inBounds x h, rfl, rfl⟩
  | ldMemVx x =>
    rcases Nat.lt_or_ge 0x1000 (s.i.toNat + (x.toNat + 1)) with h | h
    · exact ⟨_, _, exec_ldMemVx_of_outOfBounds x h, exec_ldMemVx_of_outOfBounds x h, rfl, rfl⟩
    · exact ⟨_, _, exec_ldMemVx_of_inBounds x h, exec_ldMemVx_of_inBounds x h, rfl, rfl⟩
  | ldVxMem x =>
    rcases Nat.lt_or_ge 0x1000 (s.i.toNat + (x.toNat + 1)) with h | h
    · exact ⟨_, _, exec_ldVxMem_of_outOfBounds x h, exec_ldVxMem_of_outOfBounds x h, rfl, rfl⟩
    · exact ⟨_, _, exec_ldVxMem_of_inBounds x h, exec_ldVxMem_of_inBounds x h, rfl, rfl⟩
  | _ => exact ⟨_, _, rfl, rfl, rfl, rfl⟩

/-- An instruction changes nothing outside its frame, whether it completes or faults. -/
theorem exec_frame {i : Instr} {s t : State} (h : exec i s = .next t) : t = overlayFrame i s t := by
  obtain ⟨u, -, hu, -, hframe, -⟩ := exec_frame_and_hostFields i s s
  obtain rfl := exec_next_unique h hu
  exact hframe

/-- Settles O16: the second of the two runs that `exec_frame_and_hostFields` compares. -/
theorem programsCannotObserveHostFields : Obligations.ProgramsCannotObserveHostFields := by
  intro i s t st dp aw wr pk h
  obtain ⟨t₀, t', h₀, h', -, hdiff⟩ := exec_frame_and_hostFields i s
    { s with st := st, drawPending := dp, awaitingKey := aw, waitReg := wr, pendingKey := pk }
  obtain rfl := exec_next_unique h h₀
  exact ⟨t', h', hdiff⟩

/-! ### Who writes what: fields read off the frame -/

theorem writer_of_exec_i_ne {i : Instr} {s t : State} (h : exec i s = .next t) (hne : t.i ≠ s.i) :
    (∃ nnn, i = .ldINnn nnn) ∨ ∃ x, i = .addIVx x ∨ i = .ldFVx x ∨ i = .ldMemVx x := by
  have hframe := congrArg State.i (exec_frame h)
  cases i with
  | ldINnn nnn => exact .inl ⟨nnn, rfl⟩
  | addIVx x => exact .inr ⟨x, .inl rfl⟩
  | ldFVx x => exact .inr ⟨x, .inr (.inl rfl)⟩
  | ldMemVx x => exact .inr ⟨x, .inr (.inr rfl)⟩
  | _ => exact absurd hframe hne

theorem writer_of_exec_stack_ne {i : Instr} {s t : State} (h : exec i s = .next t)
    (hne : t.stack ≠ s.stack) : ∃ nnn, i = .callNnn nnn := by
  have hframe := congrArg State.stack (exec_frame h)
  cases i with
  | callNnn nnn => exact ⟨nnn, rfl⟩
  | _ => exact absurd hframe hne

theorem writer_of_exec_sp_ne {i : Instr} {s t : State} (h : exec i s = .next t)
    (hne : t.sp ≠ s.sp) : i = .ret ∨ ∃ nnn, i = .callNnn nnn := by
  have hframe := congrArg State.sp (exec_frame h)
  cases i with
  | ret => exact .inl rfl
  | callNnn nnn => exact .inr ⟨nnn, rfl⟩
  | _ => exact absurd hframe hne

theorem writer_of_exec_dt_ne {i : Instr} {s t : State} (h : exec i s = .next t)
    (hne : t.dt ≠ s.dt) : ∃ x, i = .ldDtVx x := by
  have hframe := congrArg State.dt (exec_frame h)
  cases i with
  | ldDtVx x => exact ⟨x, rfl⟩
  | _ => exact absurd hframe hne

theorem writer_of_exec_st_ne {i : Instr} {s t : State} (h : exec i s = .next t)
    (hne : t.st ≠ s.st) : ∃ x, i = .ldStVx x := by
  have hframe := congrArg State.st (exec_frame h)
  cases i with
  | ldStVx x => exact ⟨x, rfl⟩
  | _ => exact absurd hframe hne

theorem writer_of_exec_mem_ne {i : Instr} {s t : State} (h : exec i s = .next t)
    (hne : t.mem ≠ s.mem) : ∃ x, i = .ldBVx x ∨ i = .ldMemVx x := by
  have hframe := congrArg State.mem (exec_frame h)
  cases i with
  | ldBVx x => exact ⟨x, .inl rfl⟩
  | ldMemVx x => exact ⟨x, .inr rfl⟩
  | _ => exact absurd hframe hne

theorem writer_of_exec_disp_ne {i : Instr} {s t : State} (h : exec i s = .next t)
    (hne : t.disp ≠ s.disp) : i = .cls ∨ ∃ x y n, i = .drwVxVyN x y n := by
  have hframe := congrArg State.disp (exec_frame h)
  cases i with
  | cls => exact .inl rfl
  | drwVxVyN x y n => exact .inr ⟨x, y, n, rfl⟩
  | _ => exact absurd hframe hne

theorem writer_of_exec_drawPending_ne {i : Instr} {s t : State} (h : exec i s = .next t)
    (hne : t.drawPending ≠ s.drawPending) : i = .cls ∨ ∃ x y n, i = .drwVxVyN x y n := by
  have hframe := congrArg State.drawPending (exec_frame h)
  cases i with
  | cls => exact .inl rfl
  | drwVxVyN x y n => exact .inr ⟨x, y, n, rfl⟩
  | _ => exact absurd hframe hne

theorem writer_of_exec_wait_ne {i : Instr} {s t : State} (h : exec i s = .next t)
    (hne : t.awaitingKey ≠ s.awaitingKey ∨ t.waitReg ≠ s.waitReg) : ∃ x, i = .ldVxK x := by
  have hawait := congrArg State.awaitingKey (exec_frame h)
  have hreg := congrArg State.waitReg (exec_frame h)
  cases i with
  | ldVxK x => exact ⟨x, rfl⟩
  | _ => exact hne.elim (absurd hawait) (absurd hreg)

theorem exec_keeps_keys {i : Instr} {s t : State} (h : exec i s = .next t) : t.keys = s.keys := by
  have hframe := congrArg State.keys (exec_frame h)
  cases i <;> exact hframe

theorem exec_keeps_pendingKey {i : Instr} {s t : State} (h : exec i s = .next t) :
    t.pendingKey = s.pendingKey := by
  have hframe := congrArg State.pendingKey (exec_frame h)
  cases i <;> exact hframe

/-- Settles O18: each field's writers are read off the frame. -/
theorem specialRegistersHaveTheirListedWriters :
    Obligations.SpecialRegistersHaveTheirListedWriters := fun _ _ _ h =>
  ⟨writer_of_exec_i_ne h, writer_of_exec_stack_ne h, writer_of_exec_sp_ne h, writer_of_exec_dt_ne h,
    writer_of_exec_st_ne h, writer_of_exec_mem_ne h⟩

/-- Settles O20: the frames leave the keys out, and that of Fx0A alone holds the wait. -/
theorem inputStateIsTheHosts : Obligations.InputStateIsTheHosts := by
  intro i s t h
  refine ⟨exec_keeps_keys h, exec_keeps_pendingKey h, fun hne => ?_⟩
  obtain ⟨x, rfl⟩ := writer_of_exec_wait_ne h hne
  obtain rfl := exec_next_unique h (exec_ldVxK x s)
  exact ⟨x, rfl, rfl, rfl⟩

/-- DRW sets draw_pending, or it faults and changes nothing else (R222, R225). -/
theorem exec_drwVxVyN_drawPending {x y n : Nibble} {s t : State}
    (h : exec (.drwVxVyN x y n) s = .next t) :
    t.drawPending = true ∨
      ∃ r : FaultRecord, r.kind = .memoryOutOfBounds ∧ t = { s with fault := some r } := by
  by_cases hin : n.toNat = 0 ∨ s.i.toNat + n.toNat ≤ 0x1000
  · obtain rfl := exec_next_unique h (exec_drwVxVyN_of_inBounds x y n hin)
    exact .inl rfl
  · obtain rfl := exec_next_unique h (exec_drwVxVyN_of_outOfBounds x y n (by omega) (by omega))
    exact .inr ⟨_, rfl, rfl⟩

/-- Whatever changes draw_pending is CLS or DRW, and neither clears it (R36). -/
theorem exec_keeps_drawPending_set {i : Instr} {s t : State} (h : exec i s = .next t)
    (hset : s.drawPending = true) : t.drawPending = true := by
  by_contra hclear
  rcases writer_of_exec_drawPending_ne h (by simpa [hset] using hclear) with rfl | ⟨x, y, n, rfl⟩
  · exact hclear (by rw [exec_next_unique h (exec_cls s)])
  · rcases exec_drwVxVyN_drawPending h with hdp | ⟨r, -, rfl⟩
    · exact hclear hdp
    · exact hclear hset

/-- Settles O19: the writers are read off the frame; CLS and both sides of DRW's check by their
equations. -/
theorem displayHasTwoWriters : Obligations.DisplayHasTwoWriters := by
  intro i s t h
  refine ⟨writer_of_exec_disp_ne h, writer_of_exec_drawPending_ne h, ?_, ?_,
    exec_keeps_drawPending_set h⟩
  · rintro rfl
    rw [exec_next_unique h (exec_cls s)]
  · rintro ⟨x, y, n, rfl⟩
    exact exec_drwVxVyN_drawPending h

/-! ### Which registers change -/

theorem State.eq_of_setV_changes {s t : State} {x r : Nibble} {b : Byte} (hne : t.v r ≠ s.v r)
    (hregs : t.regs = (s.setV x b).regs) : r = x := by
  by_contra hr
  exact hne ((State.v_congr hregs r).trans (State.v_setV_ne s b hr))

/-- Of two register writes, `x` last: a register that changed is one of the two. -/
theorem State.eq_or_eq_of_setV_setV_changes {s t : State} {x y r : Nibble} {a b : Byte}
    (hne : t.v r ≠ s.v r) (hregs : t.regs = ((s.setV y a).setV x b).regs) : r = x ∨ r = y := by
  by_contra! hr
  obtain ⟨hx, hy⟩ := hr
  refine hne ?_
  rw [State.v_congr hregs, State.v_setV_ne _ _ hx, State.v_setV_ne _ _ hy]

/-- Loading `count` registers from V0 on changes none from the `count`-th on (R265). -/
theorem State.lt_of_setRegsFrom_changes {s t : State} {r : Nibble} {bs : List Byte}
    (hne : t.v r ≠ s.v r) (hregs : t.regs = setRegsFrom 0 bs s.regs) : r.toNat < bs.length := by
  by_contra hr
  refine hne ?_
  simp only [State.v, hregs]
  rw [getElem_setRegsFrom, dif_neg (by omega)]

/-- Fx65 changes registers up to X alone (R265). -/
theorem exec_ldVxMem_changes {x r : Nibble} {s t : State} (h : exec (.ldVxMem x) s = .next t)
    (hne : t.v r ≠ s.v r) : r.toNat ≤ x.toNat := by
  rcases Nat.lt_or_ge 0x1000 (s.i.toNat + (x.toNat + 1)) with hb | hb
  · obtain rfl := exec_next_unique h (exec_ldVxMem_of_outOfBounds x hb)
    exact absurd rfl hne
  · obtain rfl := exec_next_unique h (exec_ldVxMem_of_inBounds x hb)
    have := State.lt_of_setRegsFrom_changes hne rfl
    rw [Memory.length_loadBytes] at this
    omega

/-- A DRW changes no register but VF, which it writes when it does not fault (R222). -/
theorem exec_drwVxVyN_changes {x y n r : Nibble} {s t : State}
    (h : exec (.drwVxVyN x y n) s = .next t) (hne : t.v r ≠ s.v r) : r = 0xF := by
  by_cases hin : n.toNat = 0 ∨ s.i.toNat + n.toNat ≤ 0x1000
  · obtain rfl := exec_next_unique h (exec_drwVxVyN_of_inBounds x y n hin)
    exact State.eq_of_setV_changes hne rfl
  · obtain rfl := exec_next_unique h (exec_drwVxVyN_of_outOfBounds x y n (by omega) (by omega))
    exact absurd rfl hne

/-- Settles O17: an instruction whose frame holds the registers writes its destination, VF, or both;
the frame of every other instruction keeps them. -/
theorem onlyTheListedRegistersChange : Obligations.OnlyTheListedRegistersChange := by
  intro i s t r h hne
  have hframe := congrArg State.regs (exec_frame h)
  cases i with
  | ldVxKk x kk | addVxKk x kk | rndVxKk x kk =>
    obtain rfl := exec_next_unique h rfl
    obtain rfl := State.eq_of_setV_changes hne rfl
    exact .inl ⟨kk, by simp⟩
  | ldVxVy x y | orVxVy x y | andVxVy x y | xorVxVy x y =>
    obtain rfl := exec_next_unique h rfl
    obtain rfl := State.eq_of_setV_changes hne rfl
    exact .inr (.inl ⟨y, by simp⟩)
  | ldVxDt x =>
    obtain rfl := exec_next_unique h rfl
    obtain rfl := State.eq_of_setV_changes hne rfl
    simp
  | addVxVy x y | subVxVy x y | subnVxVy x y =>
    obtain rfl := exec_next_unique h rfl
    rcases State.eq_or_eq_of_setV_setV_changes hne rfl with rfl | rfl <;> simp
  | shrVx x | shlVx x =>
    obtain rfl := exec_next_unique h rfl
    rcases State.eq_or_eq_of_setV_setV_changes hne rfl with rfl | rfl <;> simp
  | addIVx x =>
    obtain rfl := exec_next_unique h rfl
    obtain rfl : r = 0xF := State.eq_of_setV_changes hne rfl
    simp
  | drwVxVyN x y n =>
    obtain rfl := exec_drwVxVyN_changes h hne
    simp
  | ldVxMem x =>
    have hle := exec_ldVxMem_changes h hne
    simp [hle]
  | _ => exact absurd (State.v_congr hframe r) hne

/-! ### The reset state (R42, R341, R342) -/

theorem hostLoad_of_fits {image font : List Byte} (s : State) (hfont : font.length = 80)
    (himage : image.length ≤ 3584) :
    hostLoad image font s = .next
      { s with
        mem := (s.mem.storeBytes 0x000 font).storeBytes 0x200 image
        pc := 0x200, regs := Vector.replicate 16 0, i := 0, sp := 0, fault := none
        awaitingKey := false } := by
  unfold hostLoad
  rw [if_neg (by omega), if_neg (by omega)]

/-- Memory after a load: FONT, IMAGE, and every other byte as before (R342). -/
theorem Memory.read_loaded (m : Memory) {image font : List Byte} (a : Nat)
    (hfont : font.length = 80) (himage : image.length ≤ 3584) :
    ((m.storeBytes 0x000 font).storeBytes 0x200 image).read a =
      if a < 80 then font.getD a 0
      else if 0x200 ≤ a ∧ a < 0x200 + image.length then image.getD (a - 0x200) 0
      else m.read a := by
  have hf : 0x000 + font.length ≤ memSize := by unfold memSize; omega
  have hi : 0x200 + image.length ≤ memSize := by unfold memSize; omega
  rw [Memory.read_storeBytes _ _ _ _ hi, Memory.read_storeBytes _ _ _ _ hf]
  by_cases hlow : a < 80
  · rw [dif_neg (by omega), dif_pos (by omega), if_pos hlow, List.getD_eq_getElem _ _ (by omega)]
    rfl
  · rw [if_neg hlow, dif_neg (c := 0x000 ≤ a ∧ _) (by omega)]
    by_cases him : 0x200 ≤ a ∧ a < 0x200 + image.length
    · rw [dif_pos him, if_pos him, List.getD_eq_getElem _ _ (by omega)]
    · rw [dif_neg him, if_neg him]

@[simp] theorem length_fontBytes : fontBytes.length = 80 := Vector.length_toList

/-- Power-on creation leaves every byte 0 (R341). -/
theorem State.read_powerOn_mem (a : Nat) : State.powerOn.mem.read a = 0 := by
  show (Memory.storeBytes [] 0 (List.replicate 80 0)).read a = 0
  rw [Memory.read_storeBytes _ _ _ _ (by simp [memSize])]
  split
  · exact List.getElem_replicate _
  · next h =>
    rw [List.length_replicate] at h
    exact dif_neg (by omega)

/-- Loading FONT over the power-on memory gives the reset memory: both are in canonical form and read
alike. -/
theorem powerOn_mem_storeBytes_font :
    (State.powerOn.mem.storeBytes 0x000 fontBytes).storeBytes 0x200 [] = State.reset.mem := by
  refine Memory.ext_of_wf
    (Memory.wf_storeBytes _ _ (Memory.wf_storeBytes _ _ (Memory.wf_storeBytes _ _ Memory.wf_nil)))
    Memory.wf_reset fun a => ?_
  rw [Memory.read_loaded _ a length_fontBytes (by simp), State.read_powerOn_mem]
  show _ = Memory.background a
  unfold Memory.background
  by_cases hlow : a < 80
  · rw [if_pos hlow, dif_pos hlow, List.getD_eq_getElem _ _ (by simpa using hlow)]
    simp [fontBytes]
  · rw [if_neg hlow, dif_neg hlow, if_neg (by simp)]

/-- Settles O52: memory by what a load stores over the zeros of power-on, every other field by the
record of the load over that of power-on. -/
theorem resetStateIsTheTabulatedOne : Obligations.ResetStateIsTheTabulatedOne := by
  refine ⟨State.read_powerOn_mem, rfl, ?_, fun image himage =>
    ⟨_, hostLoad_of_fits State.powerOn length_fontBytes himage, ?_, ?_, rfl, rfl, rfl, ?_, rfl, rfl,
      Grid.cell_unlit, ?_, rfl, rfl, rfl, rfl, rfl⟩⟩
  · rw [hostLoad_of_fits _ length_fontBytes (by simp), powerOn_mem_storeBytes_font]
    rfl
  · intro a
    show Memory.read _ a = _
    rw [Memory.read_loaded _ a length_fontBytes himage, State.read_powerOn_mem]
    rfl
  · intro x
    simp [State.v]
  · intro j
    simp [State.reset]
  · intro k
    simp [State.reset]

end Sys2Proof.Machine
end

section
/-!
PROOFS. Memory (20_memory.md): an access beyond the memory faults before it writes, and a byte that an
instruction stores is what the next fetch at its address sees, high byte first. The two ways of a step
whose fetch succeeds are said once, for a word known to decode and for one known to be rejected.
-/

namespace Sys2Proof.Machine

/-! ### An access beyond the memory (R63, R64) -/

/-- Each of the four instructions that access memory checks the access before it writes (R64). -/
theorem exec_of_touches_outOfBounds {i : Instr} {count : Nat} {s : State} (htouch : TouchesFromI i count)
    (hpos : 0 < count) (hout : 0x1000 < s.i.toNat + count) :
    exec i s = .next (s.raise .memoryOutOfBounds (some (encode i)) (max s.i.toNat 0x1000)) := by
  cases htouch with
  | drw x y n => exact exec_drwVxVyN_of_outOfBounds x y n hpos.ne' hout
  | bcd x => exact exec_ldBVx_of_outOfBounds x hout
  | dump x => exact exec_ldMemVx_of_outOfBounds x hout
  | load x => exact exec_ldVxMem_of_outOfBounds x hout

/-- Settles O48: the address recorded is the one that the address check answers, the lowest that names
no byte. -/
theorem accessBeyondMemoryFaultsBeforeAnyWrite :
    Obligations.AccessBeyondMemoryFaultsBeforeAnyWrite := fun _ _ _ htouch hpos hout =>
  ⟨_, exec_of_touches_outOfBounds htouch hpos hout,
    outOfBounds_lowest (outOfBounds_eq_some.mpr ⟨hpos.ne', hout, rfl⟩)⟩

/-- An access within the memory records no fault and leaves the wait for a key alone (R34, R300). -/
theorem exec_of_touches_inBounds_keeps {i : Instr} {count : Nat} {s t : State}
    (htouch : TouchesFromI i count) (hin : s.i.toNat + count ≤ 0x1000) (h : exec i s = .next t) :
    t.fault = s.fault ∧ t.awaitingKey = s.awaitingKey := by
  cases htouch with
  | drw x y n => rw [exec_next_unique h (exec_drwVxVyN_of_inBounds x y n (.inr hin))]; exact ⟨rfl, rfl⟩
  | bcd x => rw [exec_next_unique h (exec_ldBVx_of_inBounds x hin)]; exact ⟨rfl, rfl⟩
  | dump x => rw [exec_next_unique h (exec_ldMemVx_of_inBounds x hin)]; exact ⟨rfl, rfl⟩
  | load x => rw [exec_next_unique h (exec_ldVxMem_of_inBounds x hin)]; exact ⟨rfl, rfl⟩

/-! ### A step whose fetched word is known (R66, R102, R135) -/

theorem stepWith_of_decodes {policy : Bool} {s : State} {i : Instr} (hen : s.Enabled policy)
    (hpc : s.pc.toNat < 0xFFF) (hdec : decodeWord s.fetchedWord = .ok i) :
    stepWith policy s = exec i s := by
  rcases stepWith_cases hen with ⟨hp, -⟩ | ⟨-, ⟨e, he⟩, -⟩ | ⟨-, j, hj, hstep⟩
  · omega
  · simp [hdec] at he
  · obtain rfl : i = j := Except.ok.inj (hdec.symm.trans hj)
    exact hstep

theorem stepWith_of_rejects {policy : Bool} {s : State} {e : Reject} (hen : s.Enabled policy)
    (hpc : s.pc.toNat < 0xFFF) (hrej : decodeWord s.fetchedWord = .error e) :
    stepWith policy s = raiseUnrecognized s s.fetchedWord := by
  rcases stepWith_cases hen with ⟨hp, -⟩ | ⟨-, -, hstep⟩ | ⟨-, i, hi, -⟩
  · omega
  · exact hstep
  · simp [hrej] at hi

/-! ### Stored bytes as an instruction word (R66, R67, R73) -/

theorem joinBytes_eq_ofNat (hi lo : Byte) :
    joinBytes hi lo = BitVec.ofNat 16 (hi.toNat * 256 + lo.toNat) := by
  rw [← toNat_joinBytes, BitVec.ofNat_toNat, BitVec.setWidth_eq]

/-- A fetch inside a range of stored bytes reads two of them, the one at the lower address as the high
byte (R66, R73). -/
theorem fetchedWord_of_storeBytes {s : State} {m : Memory} {base k : Nat} {bs : List Byte}
    (hmem : s.mem = m.storeBytes base bs) (hpc : s.pc.toNat = base + k) (hk : k + 1 < bs.length)
    (hfit : base + bs.length ≤ memSize) : s.fetchedWord = joinBytes bs[k] bs[k + 1] := by
  unfold State.fetchedWord
  rw [hmem, hpc, Memory.read_storeBytes_at _ _ _ _ (by omega) hfit, Nat.add_assoc,
    Memory.read_storeBytes_at _ _ _ _ hk hfit]

/-- A word with a high nibble of zero whose low byte is below 0xE0 is neither 00E0 nor 00EE (R97). -/
theorem decodeWord_joinBytes_rejects {hi lo : Byte} (hhi : hi.toNat < 0x10) (hlo : lo.toNat < 0xE0) :
    decodeWord (joinBytes hi lo) = .error (.unrecognized (joinBytes hi lo)) := by
  have hnat := toNat_joinBytes hi lo
  have hhigh : (fieldHigh (joinBytes hi lo)).toNat = 0 := by rw [toNat_fieldHigh]; omega
  have hcls : joinBytes hi lo ≠ 0x00E0 := fun h => by
    rw [h, show (0x00E0 : Word).toNat = 0xE0 from rfl] at hnat; omega
  have hret : joinBytes hi lo ≠ 0x00EE := fun h => by
    rw [h, show (0x00EE : Word).toNat = 0xEE from rfl] at hnat; omega
  simp only [decodeWord, hhigh, decodeHigh0, if_neg hcls, if_neg hret]

/-- After Fx55 of at least V0 and V1, the bytes at the old I are the word of V0 and V1 (R264, R66). -/
theorem fetchedWord_after_ldMemVx {x : Nibble} {s t : State} (hx : 1 ≤ x.toNat)
    (hfit : s.i.toNat + x.toNat < 0x1000) (h : exec (.ldMemVx x) s = .next t) :
    State.fetchedWord { t with pc := s.i } =
      BitVec.ofNat 16 ((s.v 0).toNat * 256 + (s.v 1).toNat) := by
  obtain rfl := exec_next_unique h (exec_ldMemVx_of_inBounds x (by omega))
  have hlen := s.length_regsUpTo x
  rw [fetchedWord_of_storeBytes (k := 0) rfl rfl (by omega)
      (by rw [hlen]; exact hfit), State.getElem_regsUpTo, State.getElem_regsUpTo, joinBytes_eq_ofNat]
  rfl

/-- After Fx33, the bytes at I + 1 are the word of the tens and the ones (R263, R66). -/
theorem fetchedWord_after_ldBVx {x : Nibble} {s t : State} (hfit : s.i.toNat + 2 < 0x1000)
    (h : exec (.ldBVx x) s = .next t) :
    State.fetchedWord { t with pc := s.i + 1 } =
      joinBytes (BitVec.ofNat 8 ((s.v x).toNat / 10 % 10)) (BitVec.ofNat 8 ((s.v x).toNat % 10)) := by
  obtain rfl := exec_next_unique h (exec_ldBVx_of_inBounds x (by omega))
  have hpc : (s.i + 1).toNat = s.i.toNat + 1 := by bv_omega
  exact fetchedWord_of_storeBytes (k := 1) (bs := bcdDigits (s.v x)) rfl hpc (by simp [bcdDigits])
    (by simp [bcdDigits, memSize, State.base]; omega)

/-- A decimal digit fits the byte that Fx33 stores for it (R263). -/
theorem toNat_ofNat_mod_ten (n : Nat) : (BitVec.ofNat 8 (n % 10)).toNat = n % 10 := by
  rw [BitVec.toNat_ofNat]; omega

/-- Settles O50: both clauses are the step whose fetched word is known. Of the two digits, the high
byte is below 0x10 and the low one below 0xE0, so their word is rejected. -/
theorem storedBytesAreFetchedBigEndian : Obligations.StoredBytesAreFetchedBigEndian := by
  intro x s t policy hfault hawait
  refine ⟨fun i hx hfit hexec hdec => ?_, fun hfit hexec => ?_⟩
  · obtain ⟨hf, ha⟩ := exec_of_touches_inBounds_keeps (.dump x) (by omega) hexec
    have hpc : s.i.toNat < 0xFFF := by omega
    rw [← fetchedWord_after_ldMemVx hx hfit hexec] at hdec
    exact stepWith_of_decodes ⟨hf.trans hfault, .inl (ha.trans hawait)⟩ hpc hdec
  · obtain ⟨hf, ha⟩ := exec_of_touches_inBounds_keeps (.bcd x) (by omega) hexec
    have hpc : (s.i + 1).toNat < 0xFFF := by bv_omega
    have hen : State.Enabled policy { t with pc := s.i + 1 } :=
      ⟨hf.trans hfault, .inl (ha.trans hawait)⟩
    have htens := toNat_ofNat_mod_ten ((s.v x).toNat / 10)
    have hones := toNat_ofNat_mod_ten (s.v x).toNat
    have hword := fetchedWord_after_ldBVx hfit hexec
    have hrej := decodeWord_joinBytes_rejects (hi := BitVec.ofNat 8 ((s.v x).toNat / 10 % 10))
      (lo := BitVec.ofNat 8 ((s.v x).toNat % 10)) (by omega) (by omega)
    rw [← hword] at hrej
    rw [stepWith_of_rejects hen hpc hrej, hword, raiseUnrecognized, toNat_joinBytes,
      joinBytes_eq_ofNat, htens, hones]
    rfl

end Sys2Proof.Machine
end

section
/-!
PROOFS. Encoding (30_encoding.md): decoding undoes encoding, a decoded word is its instruction's own but
for the ignored field, the rejected words are the listed ones, and no word fits two rows of the opcode
map. `decodeWord_decides` walks through the decoder once, from a word to its outcome;
`decodeWord_of_row_fits` does so from a row. The statements are read off these two.
-/

namespace Sys2Proof

open Machine Laws

/-! ### Decoding an encoded instruction (R92, R96) -/

/-- The decoder reads back each operand from the field where the instruction's format puts it. -/
theorem decodeWord_encode (i : Instr) : decodeWord (encode i) = .ok i := by
  cases i with
  | cls | ret => rfl
  | jpNnn | callNnn | ldINnn | jpV0Nnn => simp [encode, decodeWord]
  | seVxKk | sneVxKk | ldVxKk | addVxKk | rndVxKk => simp [encode, decodeWord]
  | drwVxVyN => simp [encode, decodeWord]
  | seVxVy => simp [encode, decodeWord, decodeHigh5]
  | sneVxVy => simp [encode, decodeWord, decodeHigh9]
  | ldVxVy | orVxVy | andVxVy | xorVxVy | addVxVy | subVxVy | subnVxVy | shrVx | shlVx =>
    simp [encode, decodeWord, decodeHigh8]
  | skpVx | sknpVx => simp [encode, decodeWord, decodeHighE]
  | ldVxDt | ldVxK | ldDtVx | ldStVx | addIVx | ldFVx | ldBVx | ldMemVx | ldVxMem =>
    simp [encode, decodeWord, decodeHighF]

/-- Settles O1: the two bytes join to the encoded word, which decodes to its instruction. -/
theorem decodeOfEncodeIsIdentity : Obligations.DecodeOfEncodeIsIdentity := by
  intro i rest
  simp [decodeBytes, decodeWord_encode]

/-! ### A word laid out from its own fields (R91, R92) -/

theorem word_and_ones (w : Word) : w &&& 0xFFFF = w := BitVec.and_allOnes

theorem packNnn_fields {w : Word} {o : Nibble} (ho : (fieldHigh w).toNat = o.toNat) :
    packNnn o (fieldNNN w) = w := by
  apply BitVec.eq_of_toNat_eq
  rw [toNat_packNnn, ← ho, toNat_fieldHigh, toNat_fieldNNN]
  omega

theorem packXkk_fields {w : Word} {o : Nibble} {kk : Byte} (ho : (fieldHigh w).toNat = o.toNat)
    (hkk : (fieldKK w).toNat = kk.toNat) : packXkk o (fieldX w) kk = w := by
  apply BitVec.eq_of_toNat_eq
  rw [toNat_packXkk, ← ho, ← hkk, toNat_fieldHigh, toNat_fieldX, toNat_fieldKK]
  omega

theorem packXyn_fields {w : Word} {o n : Nibble} (ho : (fieldHigh w).toNat = o.toNat)
    (hn : (fieldN w).toNat = n.toNat) : packXyn o (fieldX w) (fieldY w) n = w := by
  apply BitVec.eq_of_toNat_eq
  rw [toNat_packXyn, ← ho, ← hn, toNat_fieldHigh, toNat_fieldX, toNat_fieldY, toNat_fieldN]
  omega

/-- The mask FF0F clears the y of a word and nothing else (R94). -/
theorem packXyn_fields_without_y {w : Word} {o n : Nibble} (ho : (fieldHigh w).toNat = o.toNat)
    (hn : (fieldN w).toNat = n.toNat) : packXyn o (fieldX w) 0 n = w &&& 0xFF0F := by
  conv_rhs => rw [← packXyn_fields ho hn, show (0xFF0F : Word) = packXyn 0xF 0xF 0 0xF by decide,
    packXyn_and, nibble_and_ones, nibble_and_ones, nibble_and_zero, nibble_and_ones]

/-! ### What the decoder answers, said once (R94 to R102) -/

/-- The bits of an instruction's word that are not ignored: all but the y of SHR and SHL (R94). -/
def Instr.usedBits : Instr → Word
  | .shrVx _ | .shlVx _ => 0xFF0F
  | _ => 0xFFFF

/-- `answer` is the right one for `w`, where the words to reject are those with `rejected`: it names the
raw word, or is an instruction that holds every used bit of `w`. -/
def Decides (rejected : Prop) (w : Word) (answer : Except Reject Instr) : Prop :=
  (rejected ∧ answer = .error (.unrecognized w)) ∨
  (¬ rejected ∧ ∃ i, answer = .ok i ∧ encode i = w &&& i.usedBits)

theorem Decides.reject {rejected : Prop} {w : Word} (h : rejected) :
    Decides rejected w (.error (.unrecognized w)) := .inl ⟨h, rfl⟩

theorem Decides.accept {rejected : Prop} {w : Word} {i : Instr} (h : ¬ rejected)
    (hi : encode i = w &&& i.usedBits) : Decides rejected w (.ok i) := .inr ⟨h, i, rfl, hi⟩

/-- As `Decides.accept`, for an instruction with no ignored field. -/
theorem Decides.accept_whole {rejected : Prop} {w : Word} {i : Instr} (h : ¬ rejected)
    (hi : encode i = w) (hbits : i.usedBits = 0xFFFF) : Decides rejected w (.ok i) :=
  .accept h (by rw [hi, hbits, word_and_ones])

/-- The decoder's answer where a single check separates the instruction from the words to reject. -/
theorem Decides.ite {c : Prop} [Decidable c] {w : Word} {i : Instr} (hi : c → encode i = w)
    (hbits : i.usedBits = 0xFFFF) :
    Decides (¬ c) w (if c then .ok i else .error (.unrecognized w)) := by
  split
  next hc => exact .accept_whole (not_not.mpr hc) (hi hc) hbits
  next hc => exact .reject hc

theorem Decides.congr {rejected rejected' : Prop} {w : Word} {answer : Except Reject Instr}
    (h : Decides rejected w answer) (hiff : rejected' ↔ rejected) : Decides rejected' w answer := by
  rwa [propext hiff]

theorem decodeHigh0_decides (w : Word) : Decides (w ≠ 0x00E0 ∧ w ≠ 0x00EE) w (decodeHigh0 w) := by
  unfold decodeHigh0
  split
  next hcls => exact .accept_whole (by simp [hcls]) hcls.symm rfl
  next hcls =>
    split
    next hret => exact .accept_whole (by simp [hret]) hret.symm rfl
    next hret => exact .reject ⟨hcls, hret⟩

theorem decodeHigh5_decides {w : Word} (ho : (fieldHigh w).toNat = 0x5) :
    Decides (fieldN w ≠ 0) w (decodeHigh5 w) :=
  .ite (fun hn => packXyn_fields ho (by rw [hn])) rfl

theorem decodeHigh9_decides {w : Word} (ho : (fieldHigh w).toNat = 0x9) :
    Decides (fieldN w ≠ 0) w (decodeHigh9 w) :=
  .ite (fun hn => packXyn_fields ho (by rw [hn])) rfl

theorem decodeHigh8_decides {w : Word} (ho : (fieldHigh w).toNat = 0x8) :
    Decides ((fieldN w).toNat ∈ [0x8, 0x9, 0xA, 0xB, 0xC, 0xD, 0xF]) w (decodeHigh8 w) := by
  have hlt := (fieldN w).isLt
  unfold decodeHigh8
  split
  -- SHR and SHL, the two that ignore y
  case h_7 hn | h_9 hn => exact .accept (by simp [hn]) (packXyn_fields_without_y ho hn)
  case h_10 =>
    simp only [imp_false] at *
    exact .reject (by simp only [List.mem_cons, List.not_mem_nil, or_false]; omega)
  all_goals next hn => exact .accept_whole (by simp [hn]) (packXyn_fields ho hn) rfl

theorem decodeHighE_decides {w : Word} (ho : (fieldHigh w).toNat = 0xE) :
    Decides ((fieldKK w).toNat ∉ [0x9E, 0xA1]) w (decodeHighE w) := by
  unfold decodeHighE
  split
  case h_3 => exact .reject (by simp_all)
  all_goals next hkk => exact .accept_whole (by simp [hkk]) (packXkk_fields ho hkk) rfl

theorem decodeHighF_decides {w : Word} (ho : (fieldHigh w).toNat = 0xF) :
    Decides ((fieldKK w).toNat ∉ [0x07, 0x0A, 0x15, 0x18, 0x1E, 0x29, 0x33, 0x55, 0x65]) w
      (decodeHighF w) := by
  unfold decodeHighF
  split
  case h_10 => exact .reject (by simp_all)
  all_goals next hkk => exact .accept_whole (by simp [hkk]) (packXkk_fields ho hkk) rfl

/-- The words that R97 (high nibble 0), R98 (5 and 9), R99 (8), R100 (E) and R101 (F) list. -/
def ListedAsUnrecognized (w : Word) : Prop :=
  ((fieldHigh w).toNat = 0x0 ∧ w ≠ 0x00E0 ∧ w ≠ 0x00EE) ∨
  ((fieldHigh w).toNat = 0x5 ∧ fieldN w ≠ 0) ∨
  ((fieldHigh w).toNat = 0x9 ∧ fieldN w ≠ 0) ∨
  ((fieldHigh w).toNat = 0x8 ∧ (fieldN w).toNat ∈ [0x8, 0x9, 0xA, 0xB, 0xC, 0xD, 0xF]) ∨
  ((fieldHigh w).toNat = 0xE ∧ (fieldKK w).toNat ∉ [0x9E, 0xA1]) ∨
  ((fieldHigh w).toNat = 0xF ∧
    (fieldKK w).toNat ∉ [0x07, 0x0A, 0x15, 0x18, 0x1E, 0x29, 0x33, 0x55, 0x65])

/-- The decoder rejects exactly the listed words, and loses no used bit of any other. -/
theorem decodeWord_decides (w : Word) : Decides (ListedAsUnrecognized w) w (decodeWord w) := by
  have hlt := (fieldHigh w).isLt
  unfold decodeWord
  split
  -- the six high nibbles with a second level (R95), then the formats nnn, xkk and xyn
  case h_1 ho => exact (decodeHigh0_decides w).congr (by simp [ListedAsUnrecognized, ho])
  case h_6 ho => exact (decodeHigh5_decides ho).congr (by simp [ListedAsUnrecognized, ho])
  case h_9 ho => exact (decodeHigh8_decides ho).congr (by simp [ListedAsUnrecognized, ho])
  case h_10 ho => exact (decodeHigh9_decides ho).congr (by simp [ListedAsUnrecognized, ho])
  case h_15 ho => exact (decodeHighE_decides ho).congr (by simp [ListedAsUnrecognized, ho])
  case h_16 =>
    have ho : (fieldHigh w).toNat = 0xF := by simp only [imp_false] at *; omega
    exact (decodeHighF_decides ho).congr (by simp [ListedAsUnrecognized, ho])
  case h_2 ho | h_3 ho | h_11 ho | h_12 ho =>
    exact .accept_whole (by simp [ListedAsUnrecognized, ho]) (packNnn_fields ho) rfl
  case h_4 ho | h_5 ho | h_7 ho | h_8 ho | h_13 ho =>
    exact .accept_whole (by simp [ListedAsUnrecognized, ho]) (packXkk_fields ho rfl) rfl
  case h_14 ho => exact .accept_whole (by simp [ListedAsUnrecognized, ho]) (packXyn_fields ho rfl) rfl

theorem encode_of_decodeWord {w : Word} {i : Instr} (h : decodeWord w = .ok i) :
    encode i = w &&& i.usedBits := by
  rcases decodeWord_decides w with ⟨-, he⟩ | ⟨-, j, hj, hbits⟩
  · simp [h] at he
  · obtain rfl : i = j := Except.ok.inj (h.symm.trans hj)
    exact hbits

theorem decodeWord_answers (w : Word) :
    (∃ i, decodeWord w = .ok i) ∨ decodeWord w = .error (.unrecognized w) := by
  rcases decodeWord_decides w with ⟨-, he⟩ | ⟨-, i, hi, -⟩
  · exact .inr he
  · exact .inl ⟨i, hi⟩

theorem decodeWord_rejects_iff (w : Word) :
    decodeWord w = .error (.unrecognized w) ↔ ListedAsUnrecognized w := by
  rcases decodeWord_decides w with ⟨hl, he⟩ | ⟨hl, i, hi, -⟩
  · simp [hl, he]
  · simp [hl, hi]

/-! ### The rows of the opcode map (R92, R96, R103) -/

/-- The per-instruction lemmas of Laws/PerInstr.lean as one. -/
theorem fitsRow : ∀ i : Instr, FitsRow.Statement i
  | .cls => FitsRow.cls
  | .ret => FitsRow.ret
  | .jpNnn nnn => FitsRow.jpNnn nnn
  | .callNnn nnn => FitsRow.callNnn nnn
  | .seVxKk x kk => FitsRow.seVxKk x kk
  | .sneVxKk x kk => FitsRow.sneVxKk x kk
  | .seVxVy x y => FitsRow.seVxVy x y
  | .ldVxKk x kk => FitsRow.ldVxKk x kk
  | .addVxKk x kk => FitsRow.addVxKk x kk
  | .ldVxVy x y => FitsRow.ldVxVy x y
  | .orVxVy x y => FitsRow.orVxVy x y
  | .andVxVy x y => FitsRow.andVxVy x y
  | .xorVxVy x y => FitsRow.xorVxVy x y
  | .addVxVy x y => FitsRow.addVxVy x y
  | .subVxVy x y => FitsRow.subVxVy x y
  | .shrVx x => FitsRow.shrVx x
  | .subnVxVy x y => FitsRow.subnVxVy x y
  | .shlVx x => FitsRow.shlVx x
  | .sneVxVy x y => FitsRow.sneVxVy x y
  | .ldINnn nnn => FitsRow.ldINnn nnn
  | .jpV0Nnn nnn => FitsRow.jpV0Nnn nnn
  | .rndVxKk x kk => FitsRow.rndVxKk x kk
  | .drwVxVyN x y n => FitsRow.drwVxVyN x y n
  | .skpVx x => FitsRow.skpVx x
  | .sknpVx x => FitsRow.sknpVx x
  | .ldVxDt x => FitsRow.ldVxDt x
  | .ldVxK x => FitsRow.ldVxK x
  | .ldDtVx x => FitsRow.ldDtVx x
  | .ldStVx x => FitsRow.ldStVx x
  | .addIVx x => FitsRow.addIVx x
  | .ldFVx x => FitsRow.ldFVx x
  | .ldBVx x => FitsRow.ldBVx x
  | .ldMemVx x => FitsRow.ldMemVx x
  | .ldVxMem x => FitsRow.ldVxMem x

/-- No bit that a row fixes is an ignored one. -/
theorem usedBits_and_row_mask (i : Instr) : i.usedBits &&& i.row.mask = i.row.mask := by
  unfold Instr.usedBits
  split
  case h_1 | h_2 => exact (by decide : (0xFF0F : Word) &&& 0xF00F = 0xF00F)
  case h_3 => rw [BitVec.and_comm, word_and_ones]

theorem row_fits_of_decodeWord {w : Word} {i : Instr} (h : decodeWord w = .ok i) :
    i.row.fits w = true := by
  have hfits := (fitsRow i).2
  rwa [OpcodeRow.fits, encode_of_decodeWord h, BitVec.and_assoc, usedBits_and_row_mask] at hfits

theorem usedBits_of_ne {i : Instr} (hshr : ∀ x, i ≠ .shrVx x) (hshl : ∀ x, i ≠ .shlVx x) :
    i.usedBits = 0xFFFF := by
  unfold Instr.usedBits
  split
  case h_1 x => exact absurd rfl (hshr x)
  case h_2 x => exact absurd rfl (hshl x)
  case h_3 => rfl

/-- Settles O2: the ignored bits are those outside `usedBits`. -/
theorem decodingLosesOnlyTheIgnoredField : Obligations.DecodingLosesOnlyTheIgnoredField := by
  refine ⟨fun w i h => ⟨row_fits_of_decodeWord h, ?_, fun hshr hshl => ?_⟩, fun x y => ?_⟩
  · rintro (⟨x, rfl⟩ | ⟨x, rfl⟩) <;> exact encode_of_decodeWord h
  · rw [encode_of_decodeWord h, usedBits_of_ne hshr hshl, word_and_ones]
  · simp [decodeWord, decodeHigh8]

/-- Settles O3: the iff and the totality are what the decoder answers, with the listed fields written as
numbers; the step is that of a rejected word. -/
theorem unrecognizedWordsAreExactlyTheListed : Obligations.UnrecognizedWordsAreExactlyTheListed := by
  intro w
  refine ⟨(decodeWord_rejects_iff w).trans ?_, decodeWord_answers w, ?_⟩
  · simp only [ListedAsUnrecognized, BitVec.toNat_eq, ne_eq, toNat_fieldHigh, toNat_fieldN,
      toNat_fieldKK]
    rfl
  · rintro policy s hen hpc rfl hrej
    exact stepWith_of_rejects hen hpc hrej

/-! ### From a row to the decoder (R103) -/

theorem fits_iff (m v w : Word) : OpcodeRow.fits ⟨m, v⟩ w = true ↔ w &&& m = v := by
  simp [OpcodeRow.fits]

theorem eq_of_fits_word {v w : Word} (h : OpcodeRow.fits ⟨0xFFFF, v⟩ w = true) : w = v := by
  rwa [fits_iff, word_and_ones] at h

theorem toNat_fieldHigh_of_fits {v w : Word} (h : OpcodeRow.fits ⟨0xF000, v⟩ w = true) :
    (fieldHigh w).toNat = v.toNat / 4096 := by
  rw [fits_iff, ← packXkk_fields (w := w) rfl rfl, packXkk_fits] at h
  rw [← toNat_fieldHigh, ← h, fieldHigh_packXkk]

theorem toNat_fieldHigh_fieldN_of_fits {v w : Word} (h : OpcodeRow.fits ⟨0xF00F, v⟩ w = true) :
    (fieldHigh w).toNat = v.toNat / 4096 ∧ (fieldN w).toNat = v.toNat % 16 := by
  rw [fits_iff, ← packXyn_fields (w := w) rfl rfl, packXy_fits] at h
  rw [← toNat_fieldHigh, ← toNat_fieldN, ← h, fieldHigh_packXyn, fieldN_packXyn]
  exact ⟨rfl, rfl⟩

theorem toNat_fieldHigh_fieldKK_of_fits {v w : Word} (h : OpcodeRow.fits ⟨0xF0FF, v⟩ w = true) :
    (fieldHigh w).toNat = v.toNat / 4096 ∧ (fieldKK w).toNat = v.toNat % 256 := by
  rw [fits_iff, ← packXkk_fields (w := w) rfl rfl, packX_fits] at h
  rw [← toNat_fieldHigh, ← toNat_fieldKK, ← h, fieldHigh_packXkk, fieldKK_packXkk]
  exact ⟨rfl, rfl⟩

/-- The fields that a row fixes are all that the decoder dispatches on. -/
theorem decodeWord_of_row_fits (i : Instr) {w : Word} (h : i.row.fits w = true) :
    ∃ j, decodeWord w = .ok j ∧ j.row = i.row := by
  cases i with
  | cls | ret =>
    obtain rfl := eq_of_fits_word h
    exact ⟨_, rfl, rfl⟩
  | jpNnn | callNnn | seVxKk | sneVxKk | ldVxKk | addVxKk | ldINnn | jpV0Nnn | rndVxKk | drwVxVyN =>
    simp [decodeWord, toNat_fieldHigh_of_fits h, Instr.row]
  | seVxVy | sneVxVy =>
    obtain ⟨ho, hn⟩ := toNat_fieldHigh_fieldN_of_fits h
    have hzero : fieldN w = 0 := BitVec.eq_of_toNat_eq hn
    simp [decodeWord, decodeHigh5, decodeHigh9, ho, hzero, Instr.row]
  | ldVxVy | orVxVy | andVxVy | xorVxVy | addVxVy | subVxVy | shrVx | subnVxVy | shlVx =>
    obtain ⟨ho, hn⟩ := toNat_fieldHigh_fieldN_of_fits h
    simp [decodeWord, decodeHigh8, ho, hn, Instr.row]
  | skpVx | sknpVx | ldVxDt | ldVxK | ldDtVx | ldStVx | addIVx | ldFVx | ldBVx | ldMemVx | ldVxMem =>
    obtain ⟨ho, hkk⟩ := toNat_fieldHigh_fieldKK_of_fits h
    simp [decodeWord, decodeHighE, decodeHighF, ho, hkk, Instr.row]

/-- The fixed bits of each row, with every other bit zero, decode to an instruction of that row. -/
theorem row_of_decodeWord_value :
    ∀ r ∈ opcodeRows, (decodeWord r.value).toOption.map Instr.row = some r := by decide

theorem exists_row_eq {r : OpcodeRow} (hr : r ∈ opcodeRows) : ∃ i : Instr, i.row = r := by
  obtain ⟨i, -, hi⟩ := Option.map_eq_some_iff.mp (row_of_decodeWord_value r hr)
  exact ⟨i, hi⟩

/-- A word fits exactly the row of the instruction that it decodes to. -/
theorem fits_iff_decodeWord {r : OpcodeRow} (hr : r ∈ opcodeRows) (w : Word) :
    r.fits w = true ↔ ∃ i, decodeWord w = .ok i ∧ i.row = r := by
  constructor
  · intro h
    obtain ⟨i, rfl⟩ := exists_row_eq hr
    exact decodeWord_of_row_fits i h
  · rintro ⟨i, hi, rfl⟩
    exact row_fits_of_decodeWord hi

/-- Settles O4: since the decoder gives one instruction, the rows that a word fits are the occurrences of
that instruction's row, which the map lists once. -/
theorem opcodeMapIsUnambiguous : Obligations.OpcodeMapIsUnambiguous := by
  intro w
  cases hdec : decodeWord w with
  | error e =>
    have hnone : ∀ r ∈ opcodeRows, ¬ r.fits w = true := fun r hr hfit => by
      obtain ⟨i, hi, -⟩ := (fits_iff_decodeWord hr w).mp hfit
      simp [hdec] at hi
    rw [List.filter_eq_nil_iff.mpr hnone]
    rfl
  | ok i =>
    have hrow : ∀ r ∈ opcodeRows, r.fits w = (r == i.row) := fun r hr => by
      rw [Bool.eq_iff_iff, fits_iff_decodeWord hr, beq_iff_eq]
      simp [hdec, eq_comm]
    rw [List.filter_congr hrow, ← List.countP_eq_length_filter]
    exact List.count_eq_one_of_mem (by decide) (fitsRow i).1

/-- Settles O5: sample words, evaluated. -/
theorem sampleWordsDecode : Obligations.SampleWordsDecode := by
  unfold Obligations.SampleWordsDecode
  decide

end Sys2Proof
end

section
/-!
PROOFS. The engine (40_engine_pc.md): when a step completes and what it then answers, where an instruction
moves the program counter, the invariant of R134, and that only Cxkk reads the random draw. An
instruction's moves of the counter are the relation `PcMove`; the bound on `pc` is a fact about it.
-/

namespace Sys2Proof.Machine

/-! ### A step that is not enabled, and one that is (R130, R135, R136) -/

theorem stepWith_of_disabled {policy : Bool} {s : State} {f : Fault}
    (h : stepDisabled policy s = some f) : stepWith policy s = .fault f := by
  simp only [stepWith, h]

theorem stepWith_of_halted {s : State} {r : FaultRecord} (policy : Bool) (h : s.fault = some r) :
    stepWith policy s = .fault (.halted r) :=
  stepWith_of_disabled (by simp only [stepDisabled, h])

theorem stepWith_of_awaiting {s : State} (hfault : s.fault = none) (hawait : s.awaitingKey = true) :
    stepWith false s = .fault .blockedAwaitingKey :=
  stepWith_of_disabled (by simp [stepDisabled, hfault, hawait])

theorem stepWith_of_fetch_fails {policy : Bool} {s : State} (hen : s.Enabled policy)
    (hpc : 0xFFF ≤ s.pc.toNat) :
    stepWith policy s = .next (s.raise .memoryOutOfBounds none (max s.pc.toNat 0x1000)) := by
  rcases stepWith_cases hen with ⟨-, hstep⟩ | ⟨hp, -⟩ | ⟨hp, -⟩
  · exact hstep
  · omega
  · omega

/-- An enabled step answers a next state: without a fault, or the old state with nothing but a fault
recorded (R136). -/
theorem stepWith_inversion {policy : Bool} {s : State} (hen : s.Enabled policy) :
    (∃ t, stepWith policy s = .next t ∧ t.fault = none) ∨
      ∃ kind opcode info, stepWith policy s = .next (s.raise kind opcode info) := by
  rcases stepWith_cases hen with ⟨-, hstep⟩ | ⟨-, -, hstep⟩ | ⟨-, i, -, hstep⟩
  · exact .inr ⟨_, _, _, hstep⟩
  · exact .inr ⟨_, _, _, hstep⟩
  · rw [hstep]
    rcases exec_inversion i s with ⟨t, ht, hkeep⟩ | ⟨kind, info, hraise⟩
    · exact .inl ⟨t, ht, hkeep.trans hen.1⟩
    · exact .inr ⟨_, _, _, hraise⟩

theorem stepWith_answers_next {policy : Bool} {s : State} (hen : s.Enabled policy) :
    ∃ t, stepWith policy s = .next t := by
  rcases stepWith_inversion hen with ⟨t, ht, -⟩ | ⟨_, _, _, hraise⟩
  · exact ⟨t, ht⟩
  · exact ⟨_, hraise⟩

/-- A step has one next state. -/
theorem stepWith_next_unique {policy : Bool} {s t u : State} (ht : stepWith policy s = .next t)
    (hu : stepWith policy s = .next u) : t = u :=
  Host.Outcome.next.inj (ht.symm.trans hu)

/-- Settles O8: an enabled step answers a next state, and each of the two ways to be disabled answers its
own fault. -/
theorem stepCompletesExactlyWhenEnabled : Obligations.StepCompletesExactlyWhenEnabled := by
  refine fun policy s => ⟨⟨fun ⟨t, h⟩ => enabled_of_stepWith_next h, stepWith_answers_next⟩,
    fun r => stepWith_of_halted policy, ?_⟩
  rintro hfault hawait rfl
  exact stepWith_of_awaiting hfault hawait

/-- Settles O9: a recorded fault is the second way of `stepWith_inversion`. -/
theorem faultsArePrecise : Obligations.FaultsArePrecise := by
  intro policy s t hen h hfault
  rcases stepWith_inversion hen with ⟨u, hu, hnone⟩ | ⟨kind, opcode, info, hraise⟩
  · exact absurd (stepWith_next_unique h hu ▸ hnone) hfault
  · obtain rfl := stepWith_next_unique h hraise
    exact ⟨_, rfl, rfl, rfl, fun policy' => stepWith_of_halted policy' rfl⟩

/-- Settles O6: a word with the value of the two bytes, high byte first, is the fetched word. -/
theorem stepRunsTheDecodedInstruction : Obligations.StepRunsTheDecodedInstruction := by
  refine ⟨fun policy s op i hen hpc hop hdec => ?_, fun _ => rfl⟩
  have hword : op = s.fetchedWord := BitVec.eq_of_toNat_eq (hop.trans (toNat_joinBytes _ _).symm)
  exact stepWith_of_decodes hen hpc (hword ▸ hdec)

/-- Settles O7: the lowest of the two fetched addresses that names no byte is the larger of pc and 0x1000. -/
theorem fetchBeyondMemoryFaults : Obligations.FetchBeyondMemoryFaults := by
  refine fun policy s hen => ⟨fun hpc => ?_, fun hpc => ?_⟩
  · rw [stepWith_of_fetch_fails hen (by omega), Nat.max_eq_left hpc]
    rfl
  · rw [stepWith_of_fetch_fails hen (by omega), Nat.max_eq_right (by omega)]
    rfl

/-! ### Where an instruction leaves the counter, and what it does with the draw count (R133, R139) -/

/-- The values that the counter can have after an instruction begun in `s`: where it was, past one or two
instructions, at a jump's target, or at a return address from the stack (R133, R150 to R157). -/
inductive PcMove (s : State) : Word → Prop where
  | stays : PcMove s s.pc
  | advances : PcMove s (s.pc + 2)
  | skips : PcMove s (s.pc + 4)
  | jumps (nnn : Addr12) : PcMove s (absolute nnn)
  | jumpsByOffset (nnn : Addr12) (v0 : Byte) : PcMove s (offsetTarget nnn v0)
  | returns (j : Fin 16) : PcMove s s.stack[j.val]

theorem PcMove.skipsIf {s : State} (c : Bool) : PcMove s (s.pc + if c then 4 else 2) := by
  cases c
  · exact .advances
  · exact .skips

/-- `s` with another count of draws taken. -/
def State.withDraws (s : State) (n : Nat) : State := { s with draws := n }

/-- Two runs of an instruction, the second with any draw count: both take the same side of its check; the
first moves the counter in one of the listed ways, and the second, unless it is Cxkk, leaves the same state
but for the count. -/
theorem exec_pcMove_and_withDraws (i : Instr) (s : State) (n : Nat) :
    ∃ t, exec i s = .next t ∧ PcMove s t.pc ∧
      ((∀ x kk, i ≠ .rndVxKk x kk) → exec i (s.withDraws n) = .next (t.withDraws n)) := by
  cases i with
  | ret =>
    rcases Nat.eq_zero_or_pos s.sp.val with h | h
    · exact ⟨_, exec_ret_of_zero h, .stays, fun _ => exec_ret_of_zero h⟩
    · exact ⟨_, exec_ret_of_pos h, .returns ⟨s.sp.val - 1, by omega⟩,
        fun _ => exec_ret_of_pos (s := s.withDraws n) h⟩
  | callNnn nnn =>
    rcases Nat.lt_or_ge s.sp.val 16 with h | h
    · exact ⟨_, exec_callNnn_of_lt nnn h, .jumps nnn,
        fun _ => exec_callNnn_of_lt (s := s.withDraws n) nnn h⟩
    · have hfull : s.sp.val = 16 := by omega
      exact ⟨_, exec_callNnn_of_full nnn hfull, .stays, fun _ => exec_callNnn_of_full nnn hfull⟩
  | jpNnn nnn => exact ⟨_, rfl, .jumps nnn, fun _ => rfl⟩
  | jpV0Nnn nnn => exact ⟨_, rfl, .jumpsByOffset nnn (s.v 0), fun _ => rfl⟩
  | seVxKk x kk => exact ⟨_, exec_seVxKk x kk s, .skipsIf _, fun _ => exec_seVxKk x kk _⟩
  | sneVxKk x kk => exact ⟨_, exec_sneVxKk x kk s, .skipsIf _, fun _ => exec_sneVxKk x kk _⟩
  | seVxVy x y => exact ⟨_, exec_seVxVy x y s, .skipsIf _, fun _ => exec_seVxVy x y _⟩
  | sneVxVy x y => exact ⟨_, exec_sneVxVy x y s, .skipsIf _, fun _ => exec_sneVxVy x y _⟩
  | skpVx x =>
    rcases Nat.lt_or_ge (s.v x).toNat 16 with h | h
    · exact ⟨_, exec_skpVx_of_lt x h, .skipsIf _, fun _ => exec_skpVx_of_lt (s := s.withDraws n) x h⟩
    · exact ⟨_, exec_skpVx_of_ge x h, .stays, fun _ => exec_skpVx_of_ge x h⟩
  | sknpVx x =>
    rcases Nat.lt_or_ge (s.v x).toNat 16 with h | h
    · exact ⟨_, exec_sknpVx_of_lt x h, .skipsIf _, fun _ => exec_sknpVx_of_lt (s := s.withDraws n) x h⟩
    · exact ⟨_, exec_sknpVx_of_ge x h, .stays, fun _ => exec_sknpVx_of_ge x h⟩
  | drwVxVyN x y k =>
    by_cases h : k.toNat = 0 ∨ s.i.toNat + k.toNat ≤ 0x1000
    · exact ⟨_, exec_drwVxVyN_of_inBounds x y k h, .advances,
        fun _ => exec_drwVxVyN_of_inBounds x y k h⟩
    · have h0 : k.toNat ≠ 0 := by omega
      have hout : 0x1000 < s.i.toNat + k.toNat := by omega
      exact ⟨_, exec_drwVxVyN_of_outOfBounds x y k h0 hout, .stays,
        fun _ => exec_drwVxVyN_of_outOfBounds x y k h0 hout⟩
  | ldBVx x =>
    rcases Nat.lt_or_ge 0x1000 (s.i.toNat + 3) with h | h
    · exact ⟨_, exec_ldBVx_of_outOfBounds x h, .stays, fun _ => exec_ldBVx_of_outOfBounds x h⟩
    · exact ⟨_, exec_ldBVx_of_inBounds x h, .advances, fun _ => exec_ldBVx_of_inBounds x h⟩
  | ldMemVx x =>
    rcases Nat.lt_or_ge 0x1000 (s.i.toNat + (x.toNat + 1)) with h | h
    · exact ⟨_, exec_ldMemVx_of_outOfBounds x h, .stays, fun _ => exec_ldMemVx_of_outOfBounds x h⟩
    · exact ⟨_, exec_ldMemVx_of_inBounds x h, .advances, fun _ => exec_ldMemVx_of_inBounds x h⟩
  | ldVxMem x =>
    rcases Nat.lt_or_ge 0x1000 (s.i.toNat + (x.toNat + 1)) with h | h
    · exact ⟨_, exec_ldVxMem_of_outOfBounds x h, .stays, fun _ => exec_ldVxMem_of_outOfBounds x h⟩
    · exact ⟨_, exec_ldVxMem_of_inBounds x h, .advances, fun _ => exec_ldVxMem_of_inBounds x h⟩
  | rndVxKk x kk => exact ⟨_, rfl, .advances, fun hi => absurd rfl (hi x kk)⟩
  | cls | ldVxKk _ _ | addVxKk _ _ | ldVxVy _ _ | orVxVy _ _ | andVxVy _ _ | xorVxVy _ _ | addVxVy _ _
  | subVxVy _ _ | shrVx _ | subnVxVy _ _ | shlVx _ | ldINnn _ | ldVxDt _ | ldVxK _ | ldDtVx _ | ldStVx _
  | addIVx _ | ldFVx _ => exact ⟨_, rfl, .advances, fun _ => rfl⟩

theorem exec_pcMove {i : Instr} {s t : State} (h : exec i s = .next t) : PcMove s t.pc := by
  obtain ⟨u, hu, hmove, -⟩ := exec_pcMove_and_withDraws i s s.draws
  obtain rfl := exec_next_unique h hu
  exact hmove

theorem exec_withDraws {i : Instr} {s t : State} (hi : ∀ x kk, i ≠ .rndVxKk x kk) (n : Nat)
    (h : exec i s = .next t) : exec i (s.withDraws n) = .next (t.withDraws n) := by
  obtain ⟨u, hu, -, hdraws⟩ := exec_pcMove_and_withDraws i s n
  obtain rfl := exec_next_unique h hu
  exact hdraws hi

/-! ### The random draw is read by Cxkk alone (R139, R192) -/

theorem stepWith_withDraws {policy : Bool} {s t : State} (n : Nat)
    (hrnd : ∀ x kk, decodeWord s.fetchedWord ≠ .ok (.rndVxKk x kk)) (h : stepWith policy s = .next t) :
    stepWith policy (s.withDraws n) = .next (t.withDraws n) := by
  have hen : s.Enabled policy := enabled_of_stepWith_next h
  have hen' : (s.withDraws n).Enabled policy := hen
  rcases stepWith_cases hen with ⟨hpc, hstep⟩ | ⟨hpc, ⟨e, he⟩, hstep⟩ | ⟨hpc, i, hdec, hstep⟩
  · obtain rfl := stepWith_next_unique h hstep
    exact stepWith_of_fetch_fails hen' hpc
  · obtain rfl := stepWith_next_unique h hstep
    exact stepWith_of_rejects hen' hpc he
  · have hi : ∀ x kk, i ≠ .rndVxKk x kk := fun x kk heq => hrnd x kk (heq ▸ hdec)
    exact (stepWith_of_decodes hen' hpc hdec).trans (exec_withDraws hi n (hstep.symm.trans h))

/-- Settles O15: the second clause is `stepWith_withDraws`, and the first is its case at the state's
own draw count, where both runs are the same. -/
theorem onlyRndReadsTheDraw : Obligations.OnlyRndReadsTheDraw := by
  intro policy s t n hrnd h
  have hsame : t = t.withDraws s.draws := stepWith_next_unique h (stepWith_withDraws s.draws hrnd h)
  have hdraws : t.draws = (t.withDraws s.draws).draws := congrArg State.draws hsame
  exact ⟨hdraws, stepWith_withDraws n hrnd h⟩

/-! ### The invariant (R134) -/

/-- From a counter at which an instruction executes and a stack of return addresses, every move keeps the
counter below 0x10FF: the furthest are JP V0 from NNN = 0xFFF and V0 = 0xFF. -/
theorem PcMove.toNat_le {s : State} {a : Word} (hmove : PcMove s a) (hpc : s.pc.toNat < 0xFFF)
    (hstack : ∀ j : Fin 16, s.stack[j.val].toNat ≤ 0x1000) : a.toNat ≤ 0x10FE := by
  cases hmove with
  | stays => omega
  | advances => bv_omega
  | skips => bv_omega
  | jumps nnn => unfold absolute; bv_omega
  | jumpsByOffset nnn v0 => unfold offsetTarget; bv_omega
  | returns j => exact (hstack j).trans (by decide)

/-- Memory has two writers, and both store through `Memory.write`. -/
theorem exec_keeps_mem_wf {i : Instr} {s t : State} (h : exec i s = .next t) (hwf : s.mem.wf) :
    t.mem.wf := by
  by_cases hmem : t.mem = s.mem
  · rwa [hmem]
  · obtain ⟨x, rfl | rfl⟩ := writer_of_exec_mem_ne h hmem
    · rcases Nat.lt_or_ge 0x1000 (s.i.toNat + 3) with hb | hb
      · rwa [exec_next_unique h (exec_ldBVx_of_outOfBounds x hb)]
      · rw [exec_next_unique h (exec_ldBVx_of_inBounds x hb)]
        exact Memory.wf_storeBytes _ _ hwf
    · rcases Nat.lt_or_ge 0x1000 (s.i.toNat + (x.toNat + 1)) with hb | hb
      · rwa [exec_next_unique h (exec_ldMemVx_of_outOfBounds x hb)]
      · rw [exec_next_unique h (exec_ldMemVx_of_inBounds x hb)]
        exact Memory.wf_storeBytes _ _ hwf

/-- CALL alone writes the stack, and the return address after an instruction in memory is at most 0x1000. -/
theorem exec_keeps_stack_bound {i : Instr} {s t : State} (h : exec i s = .next t)
    (hpc : s.pc.toNat < 0xFFF) (hstack : ∀ j : Fin 16, s.stack[j.val].toNat ≤ 0x1000) (j : Fin 16) :
    t.stack[j.val].toNat ≤ 0x1000 := by
  by_cases hkeep : t.stack = s.stack
  · rw [hkeep]
    exact hstack j
  · obtain ⟨nnn, rfl⟩ := writer_of_exec_stack_ne h hkeep
    rcases Nat.lt_or_ge s.sp.val 16 with hsp | hsp
    · rw [exec_next_unique h (exec_callNnn_of_lt nnn hsp)]
      have hret : (s.pc + 2).toNat ≤ 0x1000 := by bv_omega
      rw [Vector.getElem_set]
      split
      · exact hret
      · exact hstack j
    · rw [exec_next_unique h (exec_callNnn_of_full nnn (by omega))]
      exact hstack j

theorem exec_keeps_inv {i : Instr} {s t : State} (hpc : s.pc.toNat < 0xFFF) (hinv : s.Inv)
    (h : exec i s = .next t) : t.Inv where
  mem_wf := exec_keeps_mem_wf h hinv.mem_wf
  pc_bound := (exec_pcMove h).toNat_le hpc hinv.stack_bound
  stack_bound := exec_keeps_stack_bound h hpc hinv.stack_bound

/-- The record is outside the invariant. -/
theorem State.Inv.raise {s : State} (hinv : s.Inv) (kind : FaultKind) (opcode : Option Word)
    (info : Nat) : (s.raise kind opcode info).Inv :=
  ⟨hinv.mem_wf, hinv.pc_bound, hinv.stack_bound⟩

/-- Settles O12: a step that faults on its fetch or its word moves nothing, and one that executes has its
counter below 0xFFF, from which every instruction keeps the invariant. -/
theorem everyStepKeepsTheInvariant : Obligations.EveryStepKeepsTheInvariant := by
  intro policy s t hinv h
  rcases stepWith_cases (enabled_of_stepWith_next h) with
    ⟨-, hstep⟩ | ⟨-, -, hstep⟩ | ⟨hpc, i, -, hstep⟩
  · rw [stepWith_next_unique h hstep]
    exact hinv.raise _ _ _
  · rw [stepWith_next_unique h hstep]
    exact hinv.raise _ _ _
  · exact exec_keeps_inv hpc hinv (hstep.symm.trans h)

/-- Settles O13: the reset state, evaluated. -/
theorem resetMeetsTheInvariant : Obligations.ResetMeetsTheInvariant :=
  ⟨Memory.wf_reset, by decide, by decide⟩

end Sys2Proof.Machine
end

section
/-!
PROOFS. Control flow (41_control_flow.md): where returns, jumps, calls and conditional skips leave the
counter and the call stack. The instructions' equations are `exec_ret_of_pos` to `exec_jpV0Nnn`; what is
added here is the numbers that their targets stand for, and what a popped entry reads as.
-/

namespace Sys2Proof.Machine

/-! ### Targets as numbers (R93, R157) -/

@[simp] theorem toNat_absolute (nnn : Addr12) : (absolute nnn).toNat = nnn.toNat := by
  unfold absolute
  bv_omega

/-- Neither term is masked, and their sum is far below 2^16. -/
@[simp] theorem toNat_offsetTarget (nnn : Addr12) (v0 : Byte) :
    (offsetTarget nnn v0).toNat = nnn.toNat + v0.toNat := by
  unfold offsetTarget
  bv_omega

theorem fetchFails_of_le_pc {s : State} (hpc : 0xFFF ≤ s.pc.toNat) :
    FetchFails s (max s.pc.toNat 0x1000) :=
  fun _ hen => stepWith_of_fetch_fails hen hpc

/-! ### Return and call (R150, R152, R159) -/

theorem encode_callNnn_eq_ofNat (nnn : Addr12) :
    encode (.callNnn nnn) = BitVec.ofNat 16 (0x2000 + nnn.toNat) := by
  have hpack : (encode (.callNnn nnn)).toNat = 2 * 4096 + nnn.toNat := toNat_packNnn 0x2 nnn
  rw [← hpack, BitVec.ofNat_toNat, BitVec.setWidth_eq]

/-- Settles O21: the two sides of RET's check. -/
theorem returnPopsTheStack : Obligations.ReturnPopsTheStack := by
  intro s
  refine ⟨fun hpos => ?_, fun hzero => exec_ret_of_zero hzero⟩
  exact ⟨_, exec_ret_of_pos hpos, rfl, Nat.sub_add_cancel hpos, rfl⟩

/-- Settles O22: the two sides of CALL's check; the entry at sp is the one written. -/
theorem callPushesTheReturnAddress : Obligations.CallPushesTheReturnAddress := by
  intro nnn s
  refine ⟨fun hroom => ?_, fun hfull => ?_⟩
  · refine ⟨_, exec_callNnn_of_lt nnn hroom, rfl, rfl, toNat_absolute nnn, fun j => ?_⟩
    exact (Vector.getElem_set hroom j.isLt).trans (if_congr eq_comm rfl rfl)
  · rw [exec_callNnn_of_full nnn hfull, encode_callNnn_eq_ofNat]
    rfl

/-- RET where the stack has `a` in its entry `n` and n + 1 entries are in use. -/
theorem exec_ret_of_entry {s : State} {n : Nat} {a : Word} (hn : n < 16) (hsp : s.sp.val = n + 1)
    (hentry : s.stack[n] = a) :
    exec .ret s = .next { s with sp := ⟨n, by omega⟩, pc := a } := by
  rw [exec_ret_of_pos (by omega)]
  simp only [hsp, Nat.add_sub_cancel, hentry]

/-- Settles O23: the entry that CALL wrote at the old sp is the one that RET takes. -/
theorem callThenReturnComesBack : Obligations.CallThenReturnComesBack := by
  intro nnn s t u hcall hroom hstack hsp
  obtain rfl := exec_next_unique hcall (exec_callNnn_of_lt nnn hroom)
  have hentry : u.stack[s.sp.val] = s.pc + 2 := by
    simp only [hstack, Vector.getElem_set_self]
  have hused : u.sp.val = s.sp.val + 1 := congrArg Fin.val hsp
  exact ⟨rfl, _, exec_ret_of_entry hroom hused hentry, rfl, rfl, rfl⟩

/-! ### Jumps (R151, R157, R158) -/

/-- Settles O24: the target is NNN as a number, so 0xFFF is too high for the next fetch, and NNN = pc
leaves the counter where it was. -/
theorem jumpGoesToItsAddress : Obligations.JumpGoesToItsAddress := by
  intro nnn
  refine ⟨decodeWord_encode (.jpNnn nnn), fun s => ?_⟩
  refine ⟨{ s with pc := absolute nnn }, exec_jpNnn nnn s, rfl, toNat_absolute nnn, ?_, fun hself => ?_⟩
  · rintro rfl
    exact fetchFails_of_le_pc (s := { s with pc := absolute 0xFFF }) (by simp)
  · have hpc : absolute nnn = s.pc := BitVec.eq_of_toNat_eq ((toNat_absolute nnn).trans hself)
    rw [hpc]

/-- Settles O25: the largest target is 0xFFF + 0xFF. -/
theorem jumpWithOffsetAddsRegisterZero : Obligations.JumpWithOffsetAddsRegisterZero := by
  intro nnn s
  have hpc : (offsetTarget nnn (s.v 0)).toNat = nnn.toNat + (s.v 0).toNat := toNat_offsetTarget nnn (s.v 0)
  have hbound : (offsetTarget nnn (s.v 0)).toNat ≤ 0x10FE := by bv_omega
  exact ⟨_, exec_jpV0Nnn nnn s, rfl, hpc, hbound, fetchFails_of_le_pc⟩

/-! ### Conditional skips (R153 to R156) -/

/-- SE's move of the counter, with the comparison over numbers. -/
theorem ite_beq_eq_ite_toNat (a b : Byte) (skip next : Word) :
    (if a == b then skip else next) = if a.toNat = b.toNat then skip else next := by
  simp only [beq_iff_eq, BitVec.toNat_inj]

/-- SNE's move of the counter, with the comparison over numbers. -/
theorem ite_bne_eq_ite_toNat (a b : Byte) (skip next : Word) :
    (if a != b then skip else next) = if a.toNat = b.toNat then next else skip := by
  simp only [bne_iff_ne, ne_eq, ite_not, BitVec.toNat_inj]

/-- Settles O26: each word is the encoding of its skip, and each skip's equation compares bytes, which are
equal when their numbers are. -/
theorem skipsCompareAndMoveTheCounter : Obligations.SkipsCompareAndMoveTheCounter := by
  intro x y kk
  refine ⟨decodeWord_encode (.seVxKk x kk), decodeWord_encode (.sneVxKk x kk),
    decodeWord_encode (.seVxVy x y), decodeWord_encode (.sneVxVy x y), fun s => ⟨?_, ?_, ?_, ?_⟩⟩
  · rw [exec_seVxKk, ite_beq_eq_ite_toNat]
  · rw [exec_sneVxKk, ite_bne_eq_ite_toNat]
  · rw [exec_seVxVy, ite_beq_eq_ite_toNat]
  · rw [exec_sneVxVy, ite_bne_eq_ite_toNat]

end Sys2Proof.Machine
end

section
/-!
PROOFS. Immediate loads, copies, the ALU and the random byte (42_alu.md). The instructions' equations are
`exec_ldVxKk` to `exec_rndVxKk`; what is added here is the results and flags as numbers, and what the
registers read as after one write and after a flag's write and then a result's.
-/

namespace Sys2Proof.Machine

/-! ### Flags and results as numbers (R9, R187 to R191) -/

theorem toNat_flag_decide (p : Prop) [Decidable p] :
    (flag (decide p)).toNat = if p then 1 else 0 := by
  by_cases hp : p <;> simp [flag, hp]

theorem flag_eq_one_iff (c : Bool) : flag c = 1 ↔ c = true := by
  cases c <;> decide

theorem flag_eq_zero_or_one (c : Bool) : flag c = 0 ∨ flag c = 1 := by
  cases c
  · exact .inl rfl
  · exact .inr rfl

/-- A negative difference is a strict comparison, so SUBN's flag is SUB's (R194). -/
theorem negativeFlag_eq_noBorrowFlag (vx vy : Byte) : negativeFlag vx vy = noBorrowFlag vx vy := by
  have hsign : (vy.toNat : Int) - (vx.toNat : Int) < 0 ↔ vx.toNat > vy.toNat := by omega
  unfold negativeFlag noBorrowFlag
  rw [decide_eq_decide.mpr hsign]

/-- The byte difference is that over the integers modulo 256. -/
theorem toNat_byte_sub (a b : Byte) : ((a - b).toNat : Int) = (a.toNat - b.toNat : Int) % 256 := by
  rw [BitVec.toNat_sub]
  omega

theorem toNat_lowBitFlag (vx : Byte) : (lowBitFlag vx).toNat = vx.toNat % 2 := by
  unfold lowBitFlag
  rw [BitVec.toNat_and]
  exact Nat.and_one_is_mod _

/-- The shift leaves bit 7 alone, so the mask takes nothing away. -/
theorem toNat_highBitFlag (vx : Byte) : (highBitFlag vx).toNat = vx.toNat / 128 := by
  have hbit : (highBitFlag vx).toNat = vx.toNat / 128 % 2 := by
    unfold highBitFlag
    rw [BitVec.toNat_and, BitVec.toNat_ushiftRight, Nat.shiftRight_eq_div_pow]
    exact Nat.and_one_is_mod _
  omega

theorem toNat_byte_shiftRight_one (vx : Byte) : (vx >>> 1).toNat = vx.toNat / 2 := by
  rw [BitVec.toNat_ushiftRight, Nat.shiftRight_eq_div_pow, Nat.pow_one]

theorem toNat_byte_shiftLeft_one (vx : Byte) : (vx <<< 1).toNat = vx.toNat * 2 % 256 := by
  rw [BitVec.toNat_shiftLeft, Nat.shiftLeft_eq, Nat.pow_one]

/-! ### Registers after the writes of an instruction (R180) -/

/-- An instruction that writes one register and advances. -/
theorem exec_of_writes_one {i : Instr} {s : State} {x : Nibble} {b : Byte}
    (h : exec i s = .next { s.setV x b with pc := s.pc + 2 }) :
    ∃ t, exec i s = .next t ∧ t = { s with regs := t.regs, pc := s.pc + 2 } ∧ t.v x = b ∧
      ∀ r, r ≠ x → t.v r = s.v r :=
  ⟨_, h, rfl, State.v_setV_self s x b, fun _ hr => State.v_setV_ne s b hr⟩

/-- An instruction that writes VF, then its result, and advances: with X = 0xF the result remains. -/
theorem exec_of_writes_flag_then_result {i : Instr} {s : State} {x : Nibble} {f b : Byte}
    (h : exec i s = .next { (s.setVF f).setV x b with pc := s.pc + 2 }) :
    ∃ t, exec i s = .next t ∧ t = { s with regs := t.regs, pc := s.pc + 2 } ∧ t.v x = b ∧
      (x ≠ 0xF → t.v 0xF = f) ∧ ∀ r, r ≠ x → r ≠ 0xF → t.v r = s.v r := by
  refine ⟨_, h, rfl, State.v_setV_self _ x b, fun hx => ?_, fun r hr hrF => ?_⟩
  · rw [State.v_with_pc, State.v_setV_ne _ _ hx.symm, State.v_setVF_self]
  · rw [State.v_with_pc, State.v_setV_ne _ _ hr, State.v_setVF, if_neg hrF]

/-! ### Addition and subtraction (R187 to R189, R194) -/

/-- Settles O29: of the two writes VF's is the later one, so it remains for every X, and the sum remains
for an X other than 0xF. -/
theorem addWritesSumThenCarry : Obligations.AddWritesSumThenCarry := by
  intro x y
  refine ⟨decodeWord_encode (.addVxVy x y), fun s =>
    ⟨_, exec_addVxVy x y s, rfl, fun hx => ?_, ?_, fun r hr hrF => ?_⟩⟩
  · rw [State.v_with_pc, State.v_setVF, if_neg hx, State.v_setV_self]
    exact BitVec.toNat_add _ _
  · rw [State.v_with_pc, State.v_setVF_self]
    exact toNat_flag_decide _
  · rw [State.v_with_pc, State.v_setVF, if_neg hrF, State.v_setV_ne _ _ hr]

/-- Settles O30: the flag is that of a comparison, and the difference is written after it. -/
theorem subtractWritesNoBorrowThenDifference :
    Obligations.SubtractWritesNoBorrowThenDifference := by
  intro x y
  refine ⟨decodeWord_encode (.subVxVy x y), fun s => ?_⟩
  obtain ⟨t, hexec, hframe, hresult, hflag, hothers⟩ :=
    exec_of_writes_flag_then_result (exec_subVxVy x y s)
  refine ⟨t, hexec, hframe, ?_, fun hx => ?_, hothers⟩
  · rw [hresult, toNat_byte_sub]
  · rw [hflag hx]
    exact toNat_flag_decide _

/-- Settles O31: as O30, with the operands exchanged and the flag that of a sign. -/
theorem reverseSubtractWritesSignThenDifference :
    Obligations.ReverseSubtractWritesSignThenDifference := by
  intro x y
  refine ⟨decodeWord_encode (.subnVxVy x y), fun s => ?_⟩
  obtain ⟨t, hexec, hframe, hresult, hflag, hothers⟩ :=
    exec_of_writes_flag_then_result (exec_subnVxVy x y s)
  refine ⟨t, hexec, hframe, ?_, fun hx => ?_, hothers⟩
  · rw [hresult, toNat_byte_sub]
  · rw [hflag hx]
    exact toNat_flag_decide _

/-- Settles O32: the flags agree by `negativeFlag_eq_noBorrowFlag`, and the differences cancel. -/
theorem subtractionsAgreeOnTheFlag : Obligations.SubtractionsAgreeOnTheFlag := by
  intro x y s hx
  obtain ⟨t, ht, -, htresult, htflag, -⟩ := exec_of_writes_flag_then_result (exec_subVxVy x y s)
  obtain ⟨u, hu, -, huresult, huflag, -⟩ := exec_of_writes_flag_then_result (exec_subnVxVy x y s)
  refine ⟨t, u, ht, hu, ?_, ?_, ?_, ?_⟩
  · rw [htflag hx, huflag hx, negativeFlag_eq_noBorrowFlag]
  · rw [htflag hx, noBorrowFlag, flag_eq_one_iff, decide_eq_true_iff]
  · rw [htflag hx]
    exact flag_eq_zero_or_one _
  · rw [htresult, huresult, sub_add_sub_cancel, sub_self]

/-! ### Shifts (R190, R191) -/

/-- The decoder does not read the y of SHR's word (R94). -/
theorem decodeWord_shr (x y : Nibble) : decodeWord (packXyn 0x8 x y 0x6) = .ok (.shrVx x) := by
  simp [decodeWord, decodeHigh8]

/-- Settles O33: bit 0 is the remainder that halving drops. -/
theorem shiftRightMovesBitZeroIntoTheFlag : Obligations.ShiftRightMovesBitZeroIntoTheFlag := by
  intro x
  refine ⟨decodeWord_shr x, fun s => ?_⟩
  obtain ⟨t, hexec, hframe, hresult, hflag, hothers⟩ :=
    exec_of_writes_flag_then_result (exec_shrVx x s)
  refine ⟨t, hexec, hframe, ?_, fun hx => ?_, hothers⟩
  · rw [hresult, toNat_byte_shiftRight_one]
  · rw [hflag hx, toNat_lowBitFlag]

/-- Settles O34: bit 7 is what doubling carries beyond the byte. -/
theorem shiftLeftMovesBitSevenIntoTheFlag : Obligations.ShiftLeftMovesBitSevenIntoTheFlag := by
  intro x s
  obtain ⟨t, hexec, hframe, hresult, hflag, hothers⟩ :=
    exec_of_writes_flag_then_result (exec_shlVx x s)
  refine ⟨t, hexec, hframe, ?_, fun hx => ?_, hothers⟩
  · rw [hresult, toNat_byte_shiftLeft_one]
  · rw [hflag hx, toNat_highBitFlag]

/-! ### One register written, VF left alone (R181 to R186, R192) -/

/-- Settles O27: the copy by what a register reads as after a write, the logic by the bits of each
operation. -/
theorem copyAndLogicWriteOneRegister : Obligations.CopyAndLogicWriteOneRegister := by
  intro x y
  refine ⟨decodeWord_encode (.ldVxVy x y), decodeWord_encode (.orVxVy x y),
    decodeWord_encode (.andVxVy x y), decodeWord_encode (.xorVxVy x y), fun s => ⟨?_, ?_, ?_, ?_⟩⟩
  · exact ⟨_, exec_ldVxVy x y s, rfl, fun r => State.v_setV s x r (s.v y)⟩
  · obtain ⟨t, hexec, hframe, hresult, hothers⟩ := exec_of_writes_one (exec_orVxVy x y s)
    exact ⟨t, hexec, hframe, fun b => by rw [hresult, BitVec.getLsbD_or], hothers⟩
  · obtain ⟨t, hexec, hframe, hresult, hothers⟩ := exec_of_writes_one (exec_andVxVy x y s)
    exact ⟨t, hexec, hframe, fun b => by rw [hresult, BitVec.getLsbD_and], hothers⟩
  · obtain ⟨t, hexec, hframe, hresult, hothers⟩ := exec_of_writes_one (exec_xorVxVy x y s)
    exact ⟨t, hexec, hframe, fun b => by rw [hresult, BitVec.getLsbD_xor], hothers⟩

/-- Settles O28: both write X alone, so VF keeps its value where X is another register. -/
theorem immediateFormsWriteOneRegister : Obligations.ImmediateFormsWriteOneRegister := by
  intro x kk
  refine ⟨decodeWord_encode (.ldVxKk x kk), decodeWord_encode (.addVxKk x kk), fun s => ⟨?_, ?_⟩⟩
  · exact ⟨_, exec_ldVxKk x kk s, rfl, fun r => State.v_setV s x r kk⟩
  · obtain ⟨t, hexec, hframe, hresult, hothers⟩ := exec_of_writes_one (exec_addVxKk x kk s)
    exact ⟨t, hexec, hframe, by rw [hresult]; exact BitVec.toNat_add _ _, hothers⟩

/-- Settles O35: the draw is taken at the count before the instruction, and the count is outside the
registers. -/
theorem randomMasksAFreshDraw : Obligations.RandomMasksAFreshDraw := by
  intro x kk s
  have hresult : (s.setV x (Config.randByte s.draws &&& kk)).v x = Config.randByte s.draws &&& kk :=
    State.v_setV_self s x _
  refine ⟨_, exec_rndVxKk x kk s, rfl, fun b => ?_, ?_, fun r hr => State.v_setV_ne s _ hr⟩
  · exact (congrArg (·.getLsbD b) hresult).trans BitVec.getLsbD_and
  · rintro rfl
    exact hresult.trans (byte_and_zero _)

end Sys2Proof.Machine
end

section
/-!
PROOFS. Clearing the screen and drawing a sprite (43_display.md). The drawing loops are described by
`drawRows_spec`, with the cells that they invert as `spriteCovers` over the loaded bytes; what is added
here is that these are the cells of `State.SpriteCovers`, which is stated over memory.
-/

namespace Sys2Proof.Machine

/-! ### The cells under a sprite's 1 bits (R220) -/

theorem rowCovers_iff {vx vy row : Byte} {j : Nat} {c : Fin 64} {r : Fin 32} :
    rowCovers vx vy row j c r = true ↔
      ∃ b < 8, c.val = (vx.toNat + b) % 64 ∧ r.val = (vy.toNat + j) % 32 ∧
        row.getLsbD (7 - b) = true := by
  have hcolumns : [0, 1, 2, 3, 4, 5, 6, 7] = List.range 8 := rfl
  simp only [rowCovers, hcolumns, Bool.and_eq_true, decide_eq_true_eq, List.any_eq_true,
    List.mem_range, spriteBit, spriteColumn, spriteLine, Fin.ext_iff]
  constructor
  · rintro ⟨hline, b, hb, hbit, hcolumn⟩
    exact ⟨b, hb, hcolumn, hline, hbit⟩
  · rintro ⟨b, hb, hcolumn, hline, hbit⟩
    exact ⟨hline, b, hb, hbit, hcolumn⟩

/-- The row that DRW draws as its row `j` is the byte at I + j (R222). -/
theorem spriteCovers_loadBytes_iff (s : State) (vx vy : Byte) (n : Nat) (c : Fin 64) (r : Fin 32) :
    spriteCovers vx vy c r 0 (s.mem.loadBytes s.base n) = true ↔ s.SpriteCovers vx vy n c r := by
  simp only [spriteCovers_iff, Memory.getElem_loadBytes, Memory.length_loadBytes, Nat.zero_add,
    rowCovers_iff, exists_prop, State.SpriteCovers, State.base]

/-- The covered cells depend on I and the sprite's bytes alone. -/
theorem State.spriteCovers_congr {s u : State} {n : Nat} (hi : u.i = s.i)
    (hbytes : ∀ j < n, u.mem.read (s.i.toNat + j) = s.mem.read (s.i.toNat + j))
    (vx vy : Byte) (c : Fin 64) (r : Fin 32) :
    u.SpriteCovers vx vy n c r ↔ s.SpriteCovers vx vy n c r := by
  unfold State.SpriteCovers
  refine exists_congr fun j => and_congr_right fun hj => ?_
  rw [hi, hbytes j hj]

/-! ### Clearing and drawing (R221 to R224) -/

/-- Settles O36: the word is CLS's encoding, and every cell of the cleared display is unlit. -/
theorem clearScreenUnlightsEveryCell : Obligations.ClearScreenUnlightsEveryCell :=
  ⟨decodeWord_encode .cls, fun s => ⟨_, exec_cls s, rfl, Grid.cell_unlit⟩⟩

/-- Settles O37: a sprite has at most 15 rows, so `drawRows_spec` describes the display and the collision
flag that DRW writes. -/
theorem drawInvertsTheCoveredCells : Obligations.DrawInvertsTheCoveredCells := by
  intro x y n s hin
  have hrows : (s.mem.loadBytes s.base n.toNat).length ≤ 32 := by
    rw [Memory.length_loadBytes]
    omega
  obtain ⟨hcells, hcollision⟩ := drawRows_spec (s.v x) (s.v y) 0 _ hrows (s.disp, false)
  simp only [spriteCovers_loadBytes_iff, Bool.false_eq_true, false_or] at hcollision
  refine ⟨_, exec_drwVxVyN_of_inBounds x y n hin, rfl, fun r hr => State.v_setV_ne s _ hr,
    fun c r hcov => ?_, fun c r hnot => ?_, ?_, ?_⟩
  · rw [← spriteCovers_loadBytes_iff] at hcov
    exact (hcells c r).trans (by rw [hcov, Bool.xor_true])
  · rw [← spriteCovers_loadBytes_iff, Bool.not_eq_true] at hnot
    exact (hcells c r).trans (by rw [hnot, Bool.xor_false])
  · exact (flag_eq_zero_or_one _).imp (State.v_setVF_self s _).trans (State.v_setVF_self s _).trans
  · rw [← hcollision, ← flag_eq_one_iff]
    exact Eq.congr_left (State.v_setVF_self s _)

/-- Settles O38: both draws invert the same cells, so a covered cell was unlit before the first exactly
when it is lit before the second. -/
theorem drawingTwiceRestoresTheDisplay : Obligations.DrawingTwiceRestoresTheDisplay := by
  intro x y x' y' n s t u hin hexec hi hbytes hx hy hdisp
  obtain ⟨t', ht, -, -, hinverted, hkept, -, -⟩ := drawInvertsTheCoveredCells x y n s hin
  obtain rfl := exec_next_unique ht hexec
  obtain ⟨w, hw, -, -, hinverted', hkept', -, hflag⟩ :=
    drawInvertsTheCoveredCells x' y' n u (by rwa [hi])
  simp only [hx, hy, hdisp, State.spriteCovers_congr hi hbytes] at hinverted' hkept' hflag
  refine ⟨w, hw, Grid.ext fun c r => ?_, hflag.trans ⟨?_, ?_⟩⟩
  · by_cases hcov : s.SpriteCovers (s.v x) (s.v y) n.toNat c r
    · rw [hinverted' c r hcov, hinverted c r hcov, Bool.not_not]
    · rw [hkept' c r hcov, hkept c r hcov]
  · rintro ⟨c, r, hcov, hlit⟩
    exact ⟨c, r, by rwa [hinverted c r hcov, Bool.not_eq_true'] at hlit, hlit⟩
  · rintro ⟨c, r, hunlit, hlit⟩
    refine ⟨c, r, ?_, hlit⟩
    by_contra hnot
    rw [hkept c r hnot, hunlit] at hlit
    cases hlit

end Sys2Proof.Machine
end

section
/-!
PROOFS. Keys and timers (44_keys_timers.md): the key skips, the wait for a key with the host's answer
to it, and the timer moves. The instructions' equations are `exec_skpVx_of_lt` to `exec_ldStVx`; what is
added here is the faulting skips' words as numbers, and what the host's supply_key does to a waiting state.
-/

namespace Sys2Proof.Machine

/-! ### The key skips (R240, R241) -/

theorem packXkk_eq_ofNat (o x : Nibble) (kk : Byte) :
    packXkk o x kk = BitVec.ofNat 16 (o.toNat * 4096 + x.toNat * 256 + kk.toNat) := by
  rw [← toNat_packXkk, BitVec.ofNat_toNat, BitVec.setWidth_eq]

theorem encode_skpVx_eq_ofNat (x : Nibble) :
    encode (.skpVx x) = BitVec.ofNat 16 (0xE09E + 256 * x.toNat) :=
  (packXkk_eq_ofNat 0xE x 0x9E).trans (congrArg _ (by
    change 0xE * 4096 + x.toNat * 256 + 0x9E = 0xE09E + 256 * x.toNat
    omega))

theorem encode_sknpVx_eq_ofNat (x : Nibble) :
    encode (.sknpVx x) = BitVec.ofNat 16 (0xE0A1 + 256 * x.toNat) :=
  (packXkk_eq_ofNat 0xE x 0xA1).trans (congrArg _ (by
    change 0xE * 4096 + x.toNat * 256 + 0xA1 = 0xE0A1 + 256 * x.toNat
    omega))

/-- Settles O39: the two sides of the check on V[X]; the record's word is the skip's encoding. -/
theorem keySkipsReadTheNamedKey : Obligations.KeySkipsReadTheNamedKey := by
  refine fun x s => ⟨fun hlt => ⟨exec_skpVx_of_lt x hlt, ?_⟩, fun hge => ⟨?_, ?_⟩⟩
  · rw [exec_sknpVx_of_lt x hlt]
    simp only [Bool.not_eq_true']
  · rw [exec_skpVx_of_ge x hge, encode_skpVx_eq_ofNat]
    rfl
  · rw [exec_sknpVx_of_ge x hge, encode_sknpVx_eq_ofNat]
    rfl

/-! ### The timer moves (R242, R244, R245) -/

/-- Settles O40: each word is the encoding of its move, and Fx07 writes one register. -/
theorem timerMovesCopyOneByte : Obligations.TimerMovesCopyOneByte := by
  intro x
  refine ⟨decodeWord_encode (.ldVxDt x), decodeWord_encode (.ldDtVx x), decodeWord_encode (.ldStVx x),
    fun s => ⟨?_, exec_ldDtVx x s, exec_ldStVx x s⟩⟩
  exact ⟨_, exec_ldVxDt x s, rfl, fun r => State.v_setV s x r s.dt⟩

/-! ### The wait for a key and the host's answer (R243, R311) -/

/-- A nibble's value is in the range that supply_key accepts. -/
theorem hostSupplyKey_toNat (k : Nibble) (s : State) :
    hostSupplyKey k.toNat s = .next (s.supplyKey k) := by
  rw [hostSupplyKey, if_pos k.isLt, BitVec.ofNat_toNat, BitVec.setWidth_eq]

theorem State.supplyKey_of_awaiting (k : Nibble) {s : State} (hawait : s.awaitingKey = true) :
    s.supplyKey k =
      { s.setV s.waitReg (k.zeroExtend 8) with pendingKey := k, awaitingKey := false } :=
  if_pos hawait

/-- While a key is awaited, the policy alone enables a step (R130). -/
theorem stepWith_next_iff_of_awaiting {s : State} (hfault : s.fault = none)
    (hawait : s.awaitingKey = true) (policy : Bool) :
    (∃ w, stepWith policy s = .next w) ↔ policy = true := by
  have hnot : ¬ s.awaitingKey = false := by simp [hawait]
  constructor
  · rintro ⟨w, hstep⟩
    exact (enabled_of_stepWith_next hstep).2.resolve_left hnot
  · exact fun hpolicy => stepWith_answers_next ⟨hfault, .inr hpolicy⟩

/-- Settles O41: Fx0A leaves a state that awaits a key for X, so supply_key writes the key there. -/
theorem waitForKeyThenSupply : Obligations.WaitForKeyThenSupply := by
  intro x k s
  refine ⟨_, exec_ldVxK x s, rfl, fun hfault => stepWith_next_iff_of_awaiting hfault rfl,
    _, hostSupplyKey_toNat k _, ?_⟩
  rw [State.supplyKey_of_awaiting k rfl]
  refine ⟨rfl, ?_, fun r hr => State.v_setV_ne s _ hr⟩
  calc ((s.setV x (k.zeroExtend 8)).v x).toNat
    _ = (k.zeroExtend 8).toNat := by rw [State.v_setV_self]
    _ = k.toNat := BitVec.toNat_setWidth_of_le (by decide)

end Sys2Proof.Machine
end

section
/-!
PROOFS. The index register and the transfers through it (45_index_memory.md). The instructions'
equations are `exec_ldINnn` to `exec_ldVxMem_of_outOfBounds`, and what the transfers move is said by the
laws of `storeBytes`, `loadBytes` and `setRegsFrom`; what is added here is the new index and the stored
digits as numbers, and what the registers read as after a load. That a load undoes a dump is read off
the statements about the two.
-/

namespace Sys2Proof.Machine

/-! ### Setting the index (R260 to R262) -/

theorem toNat_indexSum (i : Word) (vx : Byte) :
    (indexSum i vx).toNat = (i.toNat + vx.toNat) % 65536 :=
  BitVec.toNat_ofNat _ _

theorem toNat_indexFlag (i : Word) : (indexFlag i).toNat = if i.toNat > 0xFFF then 1 else 0 :=
  toNat_flag_decide _

/-- The product is at most 5 · 255, so nothing is truncated. -/
theorem toNat_glyphAddress (vx : Byte) : (glyphAddress vx).toNat = 5 * vx.toNat := by
  rw [glyphAddress, BitVec.toNat_ofNat]
  omega

/-- Settles O42: the word is LD I,nnn's encoding, and the address is zero-extended. -/
theorem loadIndexSetsTheAddress : Obligations.LoadIndexSetsTheAddress := fun nnn =>
  ⟨decodeWord_encode (.ldINnn nnn), fun s => ⟨_, exec_ldINnn nnn s, rfl, toNat_absolute nnn⟩⟩

/-- Settles O43: the instruction's equation, with the address as a number. -/
theorem fontAddressIsFiveTimesTheRegister : Obligations.FontAddressIsFiveTimesTheRegister :=
  fun x s => ⟨_, exec_ldFVx x s, rfl, toNat_glyphAddress (s.v x)⟩

/-- Settles O44: V[X] is read before VF is written, so X = 0xF is no case of its own. -/
theorem addToIndexFlagsTheNewIndex : Obligations.AddToIndexFlagsTheNewIndex := by
  refine fun x s => ⟨_, exec_addIVx x s, rfl, toNat_indexSum s.i (s.v x), ?_,
    fun r hr => State.v_setV_ne s _ hr⟩
  exact (congrArg BitVec.toNat (State.v_setVF_self s _)).trans (toNat_indexFlag _)

/-! ### The three decimal digits (R263) -/

/-- The hundreds of a byte are at most 2. -/
theorem toNat_ofNat_div_hundred (vx : Byte) :
    (BitVec.ofNat 8 (vx.toNat / 100)).toNat = vx.toNat / 100 := by
  rw [BitVec.toNat_ofNat]
  omega

/-- The k-th of the three stored digits. -/
theorem Memory.read_storeBytes_bcdDigits (m : Memory) {base : Nat} (vx : Byte) {k : Nat} (hk : k < 3)
    (hfit : base + 2 < 0x1000) :
    (m.storeBytes base (bcdDigits vx)).read (base + k) = (bcdDigits vx)[k] :=
  Memory.read_storeBytes_at m base (bcdDigits vx) k hk hfit

/-- Settles O45: the digits are the three stored bytes, each below 256; the faulting side is the address
check's. -/
theorem bcdStoresThreeDigits : Obligations.BcdStoresThreeDigits := by
  refine fun x => ⟨decodeWord_encode (.ldBVx x), fun s => ⟨fun hfit => ?_, fun hout => ?_⟩⟩
  · have hdigit {k : Nat} (hk : k < 3) :=
      congrArg BitVec.toNat (s.mem.read_storeBytes_bcdDigits (s.v x) hk hfit)
    refine ⟨_, exec_ldBVx_of_inBounds x hfit, rfl, ?_, ?_, ?_, fun a ha => ?_⟩
    · exact (hdigit (k := 0) (by decide)).trans (toNat_ofNat_div_hundred _)
    · exact (hdigit (k := 1) (by decide)).trans (toNat_ofNat_mod_ten _)
    · exact (hdigit (k := 2) (by decide)).trans (toNat_ofNat_mod_ten _)
    · exact Memory.read_storeBytes_outside _ _ _ a ha hfit
  · exact exec_ldBVx_of_outOfBounds x (Nat.lt_succ_of_le hout)

/-! ### Dumping and loading registers (R264 to R266) -/

/-- Past a dump within the memory the index is at most 0x1000, so it does not wrap. -/
theorem toNat_indexAfterDump {i : Word} {x : Nibble} (hfit : i.toNat + x.toNat < 0x1000) :
    (indexAfterDump i x).toNat = i.toNat + x.toNat + 1 := by
  rw [indexAfterDump, BitVec.toNat_ofNat]
  omega

/-- A register that a dump reaches stands at its own number from the base on (R264). -/
theorem State.read_storeBytes_regsUpTo (s : State) (m : Memory) {base : Nat} {x r : Nibble}
    (hr : r.toNat ≤ x.toNat) (hfit : base + x.toNat < 0x1000) :
    (m.storeBytes base (s.regsUpTo x)).read (base + r.toNat) = s.v r := by
  have hlen := s.length_regsUpTo x
  rw [Memory.read_storeBytes_at _ _ _ _ (by omega) (by rw [hlen]; exact hfit),
    State.getElem_regsUpTo, BitVec.ofNat_toNat, BitVec.setWidth_eq]

/-- A register that a load reaches takes the byte at its own number from the base on; the others are
left alone (R265). -/
theorem State.v_setRegsFrom_loadBytes (s : State) (m : Memory) (base : Nat) (x r : Nibble) :
    State.v { s with regs := setRegsFrom 0 (m.loadBytes base (x.toNat + 1)) s.regs } r =
      if r.toNat ≤ x.toNat then m.read (base + r.toNat) else s.v r := by
  unfold State.v
  rw [getElem_setRegsFrom]
  simp only [Nat.zero_le, true_and, Nat.zero_add, Memory.length_loadBytes, Nat.lt_add_one_iff,
    Nat.sub_zero, Memory.getElem_loadBytes, dite_eq_ite]

/-- Settles O46: the dump stores X + 1 bytes, the k-th of them V[k]; the faulting side is the address
check's. -/
theorem dumpStoresRegistersAndMovesIndex : Obligations.DumpStoresRegistersAndMovesIndex := by
  refine fun x => ⟨decodeWord_encode (.ldMemVx x), fun s => ⟨fun hfit => ?_, fun hout => ?_⟩⟩
  · refine ⟨_, exec_ldMemVx_of_inBounds x hfit, rfl, toNat_indexAfterDump hfit,
      fun r hr => s.read_storeBytes_regsUpTo s.mem hr hfit, fun a ha => ?_⟩
    have hlen := s.length_regsUpTo x
    exact Memory.read_storeBytes_outside _ _ _ a (by rwa [hlen]) (by rwa [hlen])
  · exact exec_ldMemVx_of_outOfBounds x (Nat.lt_succ_of_le hout)

/-- Settles O47: the load's X + 1 bytes reach the registers up to X; the faulting side is the
address check's. -/
theorem loadFillsRegistersAndKeepsIndex : Obligations.LoadFillsRegistersAndKeepsIndex := by
  refine fun x => ⟨decodeWord_encode (.ldVxMem x), fun s => ⟨fun hfit => ?_, fun hout => ?_⟩⟩
  · exact ⟨_, exec_ldVxMem_of_inBounds x hfit, rfl, s.v_setRegsFrom_loadBytes s.mem s.i.toNat x⟩
  · exact exec_ldVxMem_of_outOfBounds x (Nat.lt_succ_of_le hout)

/-- Settles O49: V[k] is loaded from I + k, where the kept bytes still hold what the dump stored there. -/
theorem dumpThenLoadGivesRegistersBack : Obligations.DumpThenLoadGivesRegistersBack := by
  intro x s t u hfit hexec hi hkept
  obtain ⟨t', ht, -, hmoved, hstored, -⟩ := ((dumpStoresRegistersAndMovesIndex x).2 s).1 hfit
  obtain rfl := exec_next_unique ht hexec
  obtain ⟨w, hw, hframe, hloaded⟩ := ((loadFillsRegistersAndKeepsIndex x).2 u).1 (by rwa [hi])
  refine ⟨hmoved, w, hw, (congrArg State.i hframe).trans hi, fun r hr => ?_⟩
  calc w.v r
    _ = u.mem.read (s.i.toNat + r.toNat) := by rw [hloaded, if_pos hr, hi]
    _ = t'.mem.read (s.i.toNat + r.toNat) := hkept _ hr
    _ = s.v r := hstored r hr

end Sys2Proof.Machine
end

section
/-!
PROOFS. Faults and the host's operations (60_exceptions.md): which faults a step records, what each of the
host's operations leaves alone, and what a whole run keeps. The faults that an instruction raises itself
are listed as `RaisedBy`, and `stepWith_fault_cases` says once what an enabled step can record; a fact
about runs is one about each operation, by `performAll_keeps`.
-/

namespace Sys2Proof.Machine

/-! ### The faults that a step records (R301, R302) -/

/-- An instruction's own failing checks, each with the kind and the info of its record (R301). -/
inductive RaisedBy (s : State) : Instr → FaultKind → Nat → Prop where
  | stackFull (nnn : Addr12) (hfull : s.sp.val = 16) : RaisedBy s (.callNnn nnn) .stackOverflow 16
  | stackEmpty (hempty : s.sp.val = 0) : RaisedBy s .ret .stackUnderflow 0
  | access {i : Instr} {count : Nat} (htouch : TouchesFromI i count) (hpos : 0 < count)
      (hout : 0x1000 < s.i.toNat + count) : RaisedBy s i .memoryOutOfBounds (max s.i.toNat 0x1000)
  | skipOnKey (x : Nibble) (hkey : 16 ≤ (s.v x).toNat) :
      RaisedBy s (.skpVx x) .keyIndexOutOfRange (s.v x).toNat
  | skipOnNoKey (x : Nibble) (hkey : 16 ≤ (s.v x).toNat) :
      RaisedBy s (.sknpVx x) .keyIndexOutOfRange (s.v x).toNat

/-- An instruction leaves the fault field alone, or records one of its own faults and does nothing else. -/
theorem exec_keeps_fault_or_raises (i : Instr) (s : State) :
    (∃ t, exec i s = .next t ∧ t.fault = s.fault) ∨
      ∃ kind info, RaisedBy s i kind info ∧
        exec i s = .next (s.raise kind (some (encode i)) info) := by
  have raises_access {count : Nat} (htouch : TouchesFromI i count) (hpos : 0 < count)
      (hout : 0x1000 < s.i.toNat + count) : ∃ kind info, RaisedBy s i kind info ∧
        exec i s = .next (s.raise kind (some (encode i)) info) :=
    ⟨_, _, .access htouch hpos hout, exec_of_touches_outOfBounds htouch hpos hout⟩
  cases i with
  | ret =>
    rcases Nat.eq_zero_or_pos s.sp.val with h | h
    · exact .inr ⟨_, _, .stackEmpty h, exec_ret_of_zero h⟩
    · exact .inl ⟨_, exec_ret_of_pos h, rfl⟩
  | callNnn nnn =>
    rcases Nat.lt_or_ge s.sp.val 16 with h | h
    · exact .inl ⟨_, exec_callNnn_of_lt nnn h, rfl⟩
    · have hfull : s.sp.val = 16 := by omega
      exact .inr ⟨_, _, .stackFull nnn hfull, exec_callNnn_of_full nnn hfull⟩
  | skpVx x =>
    rcases Nat.lt_or_ge (s.v x).toNat 16 with h | h
    · exact .inl ⟨_, exec_skpVx_of_lt x h, rfl⟩
    · exact .inr ⟨_, _, .skipOnKey x h, exec_skpVx_of_ge x h⟩
  | sknpVx x =>
    rcases Nat.lt_or_ge (s.v x).toNat 16 with h | h
    · exact .inl ⟨_, exec_sknpVx_of_lt x h, rfl⟩
    · exact .inr ⟨_, _, .skipOnNoKey x h, exec_sknpVx_of_ge x h⟩
  | drwVxVyN x y n =>
    by_cases h : n.toNat = 0 ∨ s.i.toNat + n.toNat ≤ 0x1000
    · exact .inl ⟨_, exec_drwVxVyN_of_inBounds x y n h, rfl⟩
    · exact .inr (raises_access (.drw x y n) (by omega) (by omega))
  | ldBVx x =>
    rcases Nat.lt_or_ge 0x1000 (s.i.toNat + 3) with h | h
    · exact .inr (raises_access (.bcd x) (by omega) h)
    · exact .inl ⟨_, exec_ldBVx_of_inBounds x h, rfl⟩
  | ldMemVx x =>
    rcases Nat.lt_or_ge 0x1000 (s.i.toNat + (x.toNat + 1)) with h | h
    · exact .inr (raises_access (.dump x) (by omega) h)
    · exact .inl ⟨_, exec_ldMemVx_of_inBounds x h, rfl⟩
  | ldVxMem x =>
    rcases Nat.lt_or_ge 0x1000 (s.i.toNat + (x.toNat + 1)) with h | h
    · exact .inr (raises_access (.load x) (by omega) h)
    · exact .inl ⟨_, exec_ldVxMem_of_inBounds x h, rfl⟩
  | seVxKk x kk => exact .inl ⟨_, exec_seVxKk x kk s, rfl⟩
  | sneVxKk x kk => exact .inl ⟨_, exec_sneVxKk x kk s, rfl⟩
  | seVxVy x y => exact .inl ⟨_, exec_seVxVy x y s, rfl⟩
  | sneVxVy x y => exact .inl ⟨_, exec_sneVxVy x y s, rfl⟩
  | _ => exact .inl ⟨_, rfl, rfl⟩

/-- An instruction with a check of its own has no ignored field (R94; log entry 7). -/
theorem RaisedBy.usedBits_eq {s : State} {i : Instr} {kind : FaultKind} {info : Nat}
    (h : RaisedBy s i kind info) : i.usedBits = 0xFFFF := by
  cases h with
  | access htouch => cases htouch <;> rfl
  | _ => rfl

/-- So the word that its record holds is the one that it was decoded from (R302). -/
theorem RaisedBy.encode_eq {s : State} {i : Instr} {kind : FaultKind} {info : Nat} {w : Word}
    (h : RaisedBy s i kind info) (hdec : decodeWord w = .ok i) : encode i = w := by
  rw [encode_of_decodeWord hdec, h.usedBits_eq, word_and_ones]

/-- The decoder rejects a word by its own name alone. -/
theorem decodeWord_error {w : Word} {e : Reject} (h : decodeWord w = .error e) :
    decodeWord w = .error (.unrecognized w) := by
  rcases decodeWord_answers w with ⟨i, hi⟩ | hrej
  · simp [hi] at h
  · exact hrej

/-- The whole record of a fault that an enabled step records: of its fetch, of its word, or of its
instruction. -/
theorem stepWith_fault_cases {policy : Bool} {s t : State} {r : FaultRecord} (hen : s.Enabled policy)
    (h : stepWith policy s = .next t) (hr : t.fault = some r) :
    (0xFFF ≤ s.pc.toNat ∧ r = ⟨.memoryOutOfBounds, s.pc, none, max s.pc.toNat 0x1000⟩) ∨
    (s.pc.toNat < 0xFFF ∧ decodeWord s.fetchedWord = .error (.unrecognized s.fetchedWord) ∧
      r = ⟨.unrecognizedInstruction, s.pc, some s.fetchedWord, s.fetchedWord.toNat⟩) ∨
    (s.pc.toNat < 0xFFF ∧ ∃ i kind info, decodeWord s.fetchedWord = .ok i ∧ RaisedBy s i kind info ∧
      r = ⟨kind, s.pc, some s.fetchedWord, info⟩) := by
  have record_of_raise {kind : FaultKind} {opcode : Option Word} {info : Nat}
      (hraise : stepWith policy s = .next (s.raise kind opcode info)) :
      r = ⟨kind, s.pc, opcode, info⟩ := by
    obtain rfl := stepWith_next_unique h hraise
    exact (Option.some.inj hr).symm
  rcases stepWith_cases hen with ⟨hpc, hstep⟩ | ⟨hpc, ⟨e, he⟩, hstep⟩ | ⟨hpc, i, hdec, hstep⟩
  · exact .inl ⟨hpc, record_of_raise hstep⟩
  · exact .inr (.inl ⟨hpc, decodeWord_error he, record_of_raise hstep⟩)
  · rcases exec_keeps_fault_or_raises i s with ⟨u, hu, hkeep⟩ | ⟨kind, info, hby, hraise⟩
    · obtain rfl := stepWith_next_unique h (hstep.trans hu)
      rw [hkeep, hen.1] at hr
      cases hr
    · rw [hby.encode_eq hdec] at hraise
      exact .inr (.inr ⟨hpc, i, kind, info, hdec, hby, record_of_raise (hstep.trans hraise)⟩)

/-- Settles O10: the record is one of the three of `stepWith_fault_cases`, and no instruction raises
UnrecognizedInstruction itself. -/
theorem faultRecordHoldsTheFetchedWord : Obligations.FaultRecordHoldsTheFetchedWord := by
  intro policy s t r hen h hr
  rcases stepWith_fault_cases hen h hr with
    ⟨hpc, rfl⟩ | ⟨hpc, -, rfl⟩ | ⟨hpc, i, kind, info, -, hby, rfl⟩
  · exact ⟨rfl, fun _ => rfl, fun hlt => absurd hlt (by omega), fun hkind => by cases hkind⟩
  · exact ⟨rfl, fun hge => absurd hge (by omega), fun _ => rfl, fun _ => ⟨_, rfl, rfl⟩⟩
  · refine ⟨rfl, fun hge => absurd hge (by omega), fun _ => rfl, ?_⟩
    rintro rfl
    cases hby

/-- Settles O11: the record is one of the three of `stepWith_fault_cases`, and those of an instruction are
the ones that `RaisedBy` lists. -/
theorem everyFaultHasItsListedCause : Obligations.EveryFaultHasItsListedCause := by
  intro policy s t r hen h hr
  rcases stepWith_fault_cases hen h hr with
    ⟨hpc, rfl⟩ | ⟨hpc, hrej, rfl⟩ | ⟨hpc, i, kind, info, hdec, hby, rfl⟩
  · exact .inr (.inr (.inr (.inl ⟨rfl, rfl, .inl ⟨hpc, rfl⟩⟩)))
  · exact .inl ⟨rfl, rfl, hpc, hrej, rfl⟩
  · cases hby with
    | stackFull nnn hfull => exact .inr (.inl ⟨rfl, rfl, hpc, hfull, rfl, nnn, hdec⟩)
    | stackEmpty hempty => exact .inr (.inr (.inl ⟨rfl, rfl, hpc, hempty, rfl, hdec⟩))
    | access htouch hpos hout =>
      exact .inr (.inr (.inr (.inl ⟨rfl, rfl, .inr ⟨hpc, rfl, i, _, hdec, htouch, hpos, hout⟩⟩)))
    | skipOnKey x hkey =>
      exact .inr (.inr (.inr (.inr ⟨rfl, rfl, hpc, x, .inl hdec, hkey, rfl⟩)))
    | skipOnNoKey x hkey =>
      exact .inr (.inr (.inr (.inr ⟨rfl, rfl, hpc, x, .inr hdec, hkey, rfl⟩)))

/-! ### The host's operations one by one (R311 to R314, R342) -/

theorem State.supplyKey_of_not_awaiting (k : Nibble) {s : State} (hawait : s.awaitingKey = false) :
    s.supplyKey k = { s with pendingKey := k } :=
  if_neg (by simp [hawait])

theorem State.supplyKey_frame (k : Nibble) (s : State) :
    s.supplyKey k =
      { s with regs := (s.supplyKey k).regs, pendingKey := k, awaitingKey := false } := by
  cases hawait : s.awaitingKey with
  | true =>
    rw [State.supplyKey_of_awaiting k hawait]
    rfl
  | false => rw [State.supplyKey_of_not_awaiting k hawait, ← hawait]

theorem State.v_supplyKey (k r : Nibble) (s : State) :
    (s.supplyKey k).v r =
      if s.awaitingKey = true ∧ r = s.waitReg then k.zeroExtend 8 else s.v r := by
  cases hawait : s.awaitingKey with
  | true =>
    rw [State.supplyKey_of_awaiting k hawait]
    simp only [true_and]
    exact State.v_setV s s.waitReg r (k.zeroExtend 8)
  | false =>
    rw [State.supplyKey_of_not_awaiting k hawait, if_neg (by simp)]
    rfl

theorem hostSupplyKey_of_lt {k : Nat} (s : State) (hk : k < 16) :
    hostSupplyKey k s = .next (s.supplyKey (BitVec.ofNat 4 k)) := if_pos hk

theorem hostSupplyKey_of_ge {k : Nat} (s : State) (hk : 16 ≤ k) :
    hostSupplyKey k s = .refused (.keyValueOutOfRange k) := if_neg (by omega)

/-- Settles O53: a value below 16 is that of its nibble, and of the byte that V[wait_reg] takes. -/
theorem supplyKeyEndsTheWait : Obligations.SupplyKeyEndsTheWait := by
  refine fun k s => ⟨hostSupplyKey_of_ge s, fun hk => ⟨_, hostSupplyKey_of_lt s hk, ?_, ?_, fun r => ?_⟩⟩
  · rw [State.supplyKey_pendingKey]
    exact State.supplyKey_frame _ s
  · rw [State.supplyKey_pendingKey, BitVec.toNat_ofNat]
    exact Nat.mod_eq_of_lt hk
  · have hbyte : ((BitVec.ofNat 4 k).zeroExtend 8).toNat = k := by
      rw [BitVec.toNat_setWidth_of_le (by decide), BitVec.toNat_ofNat]
      exact Nat.mod_eq_of_lt hk
    rw [State.v_supplyKey, apply_ite BitVec.toNat, hbyte]

theorem hostSetKey_of_lt {k : Nat} (down : Bool) (s : State) (hk : k < 16) :
    hostSetKey k down s = .next { s with keys := s.keys.set k down hk } := dif_pos hk

theorem hostSetKey_of_ge {k : Nat} (down : Bool) (s : State) (hk : 16 ≤ k) :
    hostSetKey k down s = .refused (.keyIndexNotAKey k) := dif_neg (by omega)

/-- A timer at 0 stays there (R313). -/
theorem toNat_countDown (t : Byte) : (countDown t).toNat = t.toNat - 1 := by
  unfold countDown
  split
  · bv_omega
  · omega

/-- Settles O54: the key set is read back by its index, and each other operation writes one field. -/
theorem hostOperationsWriteTheirOwnField : Obligations.HostOperationsWriteTheirOwnField := by
  refine fun k down s => ⟨hostSetKey_of_ge down s, fun hk => ?_, ?_, ?_, rfl⟩
  · exact ⟨_, hostSetKey_of_lt down s hk, rfl,
      fun j => (Vector.getElem_set hk j.isLt).trans (if_congr eq_comm rfl rfl)⟩
  · exact ⟨_, rfl, rfl, toNat_countDown s.dt⟩
  · exact ⟨_, rfl, rfl, toNat_countDown s.st⟩

theorem eq_of_hostLoad_next {image font : List Byte} {s t : State}
    (h : hostLoad image font s = .next t) :
    t = { s with
      mem := (s.mem.storeBytes 0x000 font).storeBytes 0x200 image
      pc := 0x200, regs := Vector.replicate 16 0, i := 0, sp := 0, fault := none
      awaitingKey := false } := by
  unfold hostLoad at h
  split at h
  · cases h
  · split at h
    · cases h
    · exact (Host.Outcome.next.inj h).symm

theorem eq_of_hostSupplyKey_next {k : Nat} {s t : State} (h : hostSupplyKey k s = .next t) :
    t = s.supplyKey (BitVec.ofNat 4 k) := by
  rcases Nat.lt_or_ge k 16 with hk | hk
  · exact Host.Outcome.next.inj (h.symm.trans (hostSupplyKey_of_lt s hk))
  · cases h.symm.trans (hostSupplyKey_of_ge s hk)

theorem keys_of_hostSetKey_next {k : Nat} {down : Bool} {s t : State}
    (h : hostSetKey k down s = .next t) : ∃ keys, t = { s with keys := keys } := by
  rcases Nat.lt_or_ge k 16 with hk | hk
  · exact ⟨_, Host.Outcome.next.inj (h.symm.trans (hostSetKey_of_lt down s hk))⟩
  · cases h.symm.trans (hostSetKey_of_ge down s hk)

/-! ### What an operation leaves alone (R311 to R315) -/

/-- `s` with the four fields that set_key, tick_timer and ack_render write taken from `t`. -/
def State.withPeripherals (s t : State) : State :=
  { s with dt := t.dt, st := t.st, keys := t.keys, drawPending := t.drawPending }

/-- Of two operations that write the peripherals alone, the later one's values remain. -/
theorem State.eq_withPeripherals_trans {s u t : State} (hu : u = s.withPeripherals u)
    (ht : t = u.withPeripherals t) : t = s.withPeripherals t := by
  rw [hu] at ht
  exact ht

/-- An operation that loads no program, makes no step and supplies no key writes the keys, the timers and
draw_pending at most. -/
theorem perform_frame {policy : Bool} {op : HostOp} {s t : State}
    (hload : ∀ image font, op ≠ .load image font) (hstep : op ≠ .step)
    (hkey : ∀ k, op ≠ .supplyKey k) (h : perform policy op s = .next t) : t = s.withPeripherals t := by
  cases op with
  | load image font => exact absurd rfl (hload image font)
  | step => exact absurd rfl hstep
  | supplyKey k => exact absurd rfl (hkey k)
  | setKey k down =>
    obtain ⟨keys, rfl⟩ := keys_of_hostSetKey_next h
    rfl
  | tickTimer timer => cases timer <;> cases h <;> rfl
  | ackRender => cases h; rfl
  | read f => cases h; rfl

/-- Between two steps the host does not reach memory, the counter, the stack or the record, but by loading
a program (R303, R342). -/
theorem perform_keeps_core {policy : Bool} {op : HostOp} {s t : State}
    (hload : ∀ image font, op ≠ .load image font) (hstep : op ≠ .step)
    (h : perform policy op s = .next t) :
    t.mem = s.mem ∧ t.pc = s.pc ∧ t.stack = s.stack ∧ t.fault = s.fault := by
  by_cases hkey : ∃ k, op = .supplyKey k
  · obtain ⟨k, rfl⟩ := hkey
    rw [eq_of_hostSupplyKey_next h]
    simp
  · rw [perform_frame hload hstep (not_exists.mp hkey) h]
    exact ⟨rfl, rfl, rfl, rfl⟩

/-! ### Runs (R303, R316, R317, R324) -/

/-- What every operation of a run keeps, the run keeps. -/
theorem performAll_keeps {policy : Bool} {P : State → Prop} {ops : List HostOp}
    (hop : ∀ op ∈ ops, ∀ s t, P s → perform policy op s = .next t → P t) {s t : State} (hs : P s)
    (h : performAll policy ops s = .next t) : P t := by
  induction ops generalizing s with
  | nil => exact Host.Outcome.next.inj h ▸ hs
  | cons op rest ih =>
    unfold performAll at h
    split at h
    next u hu =>
      exact ih (fun o ho => hop o (List.mem_cons_of_mem _ ho)) (hop op List.mem_cons_self s u hs hu) h
    · cases h
    · cases h

theorem State.Inv.of_hostLoad {image font : List Byte} {s t : State} (hinv : s.Inv)
    (h : hostLoad image font s = .next t) : t.Inv := by
  rw [eq_of_hostLoad_next h]
  have hentry : (0x200 : Word).toNat ≤ 0x10FE := by decide
  exact ⟨Memory.wf_storeBytes _ _ (Memory.wf_storeBytes _ _ hinv.mem_wf), hentry, hinv.stack_bound⟩

theorem perform_keeps_inv {policy : Bool} {op : HostOp} {s t : State} (hinv : s.Inv)
    (h : perform policy op s = .next t) : t.Inv := by
  cases op with
  | load image font => exact hinv.of_hostLoad h
  | step => exact everyStepKeepsTheInvariant policy s t hinv h
  | _ =>
    obtain ⟨hmem, hpc, hstack, -⟩ := perform_keeps_core (by simp) (by simp) h
    exact ⟨hmem ▸ hinv.mem_wf, hpc ▸ hinv.pc_bound, hstack ▸ hinv.stack_bound⟩

/-- Settles O14: a load stores through `Memory.write` and sets pc to 0x200, a step is O12's, and no other
operation reaches what the invariant speaks of. -/
theorem everyRunKeepsTheInvariant : Obligations.EveryRunKeepsTheInvariant := fun _ _ _ _ hinv h =>
  performAll_keeps (fun _ _ _ _ => perform_keeps_inv) hinv h

/-- Settles O55: on a halted core no step answers a next state. -/
theorem onlyLoadingClearsAFault : Obligations.OnlyLoadingClearsAFault := by
  intro policy ops s t r hload hr h
  refine performAll_keeps (P := fun u => u.fault = some r ∧ u.pc = s.pc ∧ u.mem = s.mem) ?_
    ⟨hr, rfl, rfl⟩ h
  rintro op hop u w ⟨hfault, hpc, hmem⟩ hu
  have hstep : op ≠ .step := by
    rintro rfl
    have hnone := (enabled_of_stepWith_next hu).1
    simp [hfault] at hnone
  have hnoload (image font : List Byte) : op ≠ .load image font := fun heq => hload _ _ (heq ▸ hop)
  obtain ⟨hmem', hpc', -, hfault'⟩ := perform_keeps_core hnoload hstep hu
  exact ⟨hfault'.trans hfault, hpc'.trans hpc, hmem'.trans hmem⟩

/-- The word of an idle state is the jump to its own address. -/
theorem State.Idle.decodes {s : State} (hidle : s.Idle) :
    ∃ nnn : Addr12, decodeWord s.fetchedWord = .ok (.jpNnn nnn) ∧ nnn.toNat = s.pc.toNat := by
  obtain ⟨hpc, hword⟩ := hidle
  have hnnn : (s.pc.setWidth 12).toNat = s.pc.toNat := by bv_omega
  have hself : s.fetchedWord = packNnn 0x1 (s.pc.setWidth 12) := by
    apply BitVec.eq_of_toNat_eq
    rw [State.fetchedWord, hword, toNat_packNnn, hnnn]
    bv_omega
  exact ⟨_, hself ▸ decodeWord_encode (.jpNnn _), hnnn⟩

theorem State.Idle.stepWith_self {policy : Bool} {s : State} (hidle : s.Idle)
    (hen : s.Enabled policy) : stepWith policy s = .next s := by
  obtain ⟨nnn, hdec, hself⟩ := hidle.decodes
  obtain ⟨t, hexec, -, -, -, hloop⟩ := (jumpGoesToItsAddress nnn).2 s
  rw [stepWith_of_decodes hen hidle.1 hdec, hexec, hloop hself]

/-- Settles O56: one step at a self-jump answers the same state, and so do any number of them. -/
theorem idleStateNeverChanges : Obligations.IdleStateNeverChanges := by
  intro policy s n hidle hen
  induction n with
  | zero => rfl
  | succ n ih =>
    have hone : perform policy .step s = .next s := hidle.stepWith_self hen
    rw [List.replicate_succ, performAll, hone]
    exact ih

/-- Settles O57: in every state that differs from the blocked one in its peripherals alone no step is
enabled, so the operations that remain are those of `perform_frame`. -/
theorem blockedRunStaysBlocked : Obligations.BlockedRunStaysBlocked := by
  rintro policy rest s ⟨hawait, rfl, hnokey⟩ hfault
  have hblocked {u : State} (hu : u = s.withPeripherals u) :
      stepWith false u = .fault .blockedAwaitingKey :=
    stepWith_of_awaiting ((congrArg State.fault hu).trans hfault)
      ((congrArg State.awaitingKey hu).trans hawait)
  refine ⟨hblocked rfl, fun t hnoload h => ?_, fun k => ?_⟩
  · have hframe : t = s.withPeripherals t := by
      refine performAll_keeps (P := fun u => u = s.withPeripherals u) ?_ rfl h
      intro op hop u w hu hw
      have hstep : op ≠ .step := by
        rintro rfl
        cases (hblocked hu).symm.trans hw
      have hkeep := perform_frame (fun _ _ heq => hnoload _ _ (heq ▸ hop)) hstep
        (fun _ heq => hnokey _ (heq ▸ hop)) hw
      exact State.eq_withPeripherals_trans hu hkeep
    exact ⟨hframe, hblocked hframe⟩
  · exact ⟨_, hostSupplyKey_toNat k s, by simpa using hfault, .inl (State.supplyKey_awaitingKey s k)⟩

end Sys2Proof.Machine
end

section
/-!
PROOFS. Loading a program (70_reset_and_hazards.md): the two inputs that a load refuses, and what a load
that is not refused leaves in memory and in the registers.
-/

namespace Sys2Proof.Machine

theorem hostLoad_of_font_length_ne {image font : List Byte} (s : State) (hfont : font.length ≠ 80) :
    hostLoad image font s = .refused (.fontNot80Bytes font.length) := if_pos hfont

theorem hostLoad_of_image_too_long {image font : List Byte} (s : State) (hfont : font.length = 80)
    (himage : 3584 < image.length) :
    hostLoad image font s = .refused (.imageTooLong image.length) :=
  (if_neg (not_not_intro hfont)).trans (if_pos himage)

/-- Settles O51: the length of FONT is checked before that of IMAGE; past both checks memory is that of
`Memory.read_loaded`, and the rest is the record of the load. -/
theorem loadingAProgramWritesTheListedFields : Obligations.LoadingAProgramWritesTheListedFields := by
  refine fun image font s => ⟨fun hmisfit => ?_, fun hfont himage =>
    ⟨_, hostLoad_of_fits s hfont himage, rfl, fun x => Vector.getElem_replicate x.isLt,
      fun a => Memory.read_loaded s.mem a hfont himage⟩⟩
  by_cases hfont : font.length = 80
  · have himage : 3584 < image.length := hmisfit.resolve_left (not_not_intro hfont)
    exact ⟨_, hostLoad_of_image_too_long s hfont himage⟩
  · exact ⟨_, hostLoad_of_font_length_ne s hfont⟩

end Sys2Proof.Machine
end
